-- ==== Sys2Proof/Word.lean ====
section
/-! DEFINITION. The widths of the block's registers, ports and command word (00_scope.md R7, R8, R9; 30_encoding.md R47).
Bit 0 is the least significant bit of every value (R9). -/

namespace Sys2Proof

/-- `PHASE`, the 3-bit phase index (10_state.md R14). -/
abbrev Phase := BitVec 3

/-- A pattern of the commutation table packed as R9 says: bit `i` is the value driven on output `i`. -/
abbrev Pattern := BitVec 4

/-- The count field of STEP and the register `REM`: `COUNT_W` = 32 bits (30_encoding.md R49, 10_state.md R16). -/
abbrev Count := BitVec 32

/-- A number of ticks of the time base: `TMR`, `CFG_INTERVAL`, `cfg_interval_ticks` (10_state.md R18, R19, R25). -/
abbrev Ticks := BitVec 32

/-- Steps per revolution at the port and in `CFG_SPR`: 32 bits unsigned (10_state.md R20). -/
abbrev Spr := BitVec 32

/-- The 64-bit operand field of a command; for the rotation commands an IEEE 754 binary64 number (30_encoding.md R47,
R50, R51). -/
abbrev Angle := BitVec 64

/-- A command word `cmd[71:0]`, one indivisible value (30_encoding.md R47, 20_memory.md R35). -/
abbrev CmdWord := BitVec 72

/-- `STATUS`, a 3-bit completion code (10_state.md R22). -/
abbrev Code := BitVec 3

end Sys2Proof
end

