-- ==== Sys2Proof/Config.lean ====
section
/-! DEFINITION. What is fixed for the machine: the parameters the source fixes (00_scope.md R7), the parameters it
leaves open (R8), and the free values: constants with no body, so that nothing can be proved about them but what
holds whatever they are. -/

namespace Sys2Proof.Config

/-- The pin count, "fixed at 4" (00_scope.md R7, 10_state.md R21). -/
def nPins : Nat := 4

/-- The number of entries of the commutation table and of values of `PHASE` (00_scope.md R7). -/
def nPhases : Nat := 8

/-- The default steps per revolution (00_scope.md R7). -/
def defaultSpr : Nat := 4096

/-- The default step interval, 2 ms, in nanoseconds (00_scope.md R7). -/
def defaultIntervalNanos : Int := 2000000

/-! `TICK`, the period of the time base, is `OPEN` (00_scope.md R8; 92_eei_decisions.md D16): any positive rational
number of nanoseconds at which the default interval fits the 32-bit port `cfg_interval_ticks` (10_state.md R25). That is
the least such period, `defaultIntervalNanos / maxTicks`, and anything added to it (assumption 6). -/

/-- The largest number of ticks the port `cfg_interval_ticks` carries. -/
def maxTicks : Nat := 2 ^ 32 - 1

/-- What `TICK` exceeds the least period by, in nanoseconds: `tickExcess / max 1 tickExcessPart`. -/
opaque tickExcess : Nat

/-- The denominator of that excess, where it is not 0. -/
opaque tickExcessPart : Nat

/-- `TICK` is `tickNum / tickDen` nanoseconds. -/
def tickNum : Nat := defaultIntervalNanos.toNat * max 1 tickExcessPart + maxTicks * tickExcess

/-- `TICK` is `tickNum / tickDen` nanoseconds. -/
def tickDen : Nat := maxTicks * max 1 tickExcessPart

/-- `ceil(interval / TICK)` for a `TICK` of `num / den` nanoseconds, and 0 for every interval that is not positive
(00_scope.md R8, 10_state.md R25). -/
def ceilTicks (num den : Nat) (intervalNanos : Int) : Nat := (intervalNanos.toNat * den + (num - 1)) / num

/-- `INTERVAL_TICKS`, which the host drives on `cfg_interval_ticks` for a step interval. -/
def intervalTicks (intervalNanos : Int) : Nat := ceilTicks tickNum tickDen intervalNanos

/-- The 8 x 4 commutation table `CT` of the instance that `State.reset` describes. `OPEN`: the source gives none of
its 32 bits (10_state.md R13; assumption 1). -/
opaque commutationTable : Vector Pattern 8

/-! The free values. Each is a function of the number of draws made so far (`State.draws`), so that two draws are
unrelated. -/

/-- `OUT` after a reset (10_state.md R15, 70_reset_and_hazards.md R107; assumption 2). -/
opaque freeOut : Nat → Pattern

/-- `REM` after a reset and after an error that ends a STEP (10_state.md R16, 93_implementation_defined.md U9;
assumptions 2 and 5). -/
opaque freeRem : Nat → Count

/-- `DIR` after a reset (10_state.md R17; assumption 2). -/
opaque freeDir : Nat → Bool

/-- `TMR` after a reset and after an error that ends a STEP (10_state.md R18, 93_implementation_defined.md U9;
assumptions 2 and 5). -/
opaque freeTmr : Nat → Ticks

/-- Which outputs keep their old value when a pattern write fails: the per-bit `draw` of 60_exceptions.md R87
(assumption 4). -/
opaque freeKeep : Nat → Pattern

end Sys2Proof.Config
end

