-- ==== Sys2Proof/Machine/State.lean ====
section
/-! DEFINITION. The state of one instance of the block (10_state.md R13 to R25, R31): its registers, its table, its
ports, and the host's side of the command port. All of it is plain data. -/

namespace Sys2Proof.Machine

/-- The sequencer's micro-state `SEQ` (10_state.md R24). -/
inductive Seq where
  /-- INIT raised `ConfigError`; no driver exists. -/
  | failed
  /-- No command in progress; the command port is ready. -/
  | idle
  /-- A STEP is in progress and the next action is an iteration. -/
  | drive
  /-- A STEP is in progress and the block is in the inter-step suspension. -/
  | wait
  deriving DecidableEq, Repr

/-- The levels of the input ports on one step (10_state.md R25), less the command word, which is the head of
`State.cmds`. -/
structure Inputs where
  /-- `rst`: while 1 the block is held in reset; its release performs INIT. -/
  rst : Bool
  /-- `cfg_n_outputs`, sampled at reset release. -/
  cfgNOutputs : BitVec 8
  /-- `cfg_interval_ticks`, sampled at reset release; 0 stands for every interval that is not positive. -/
  cfgIntervalTicks : Ticks
  /-- `cfg_spr`, sampled at reset release; 0 stands for every value that is not positive. -/
  cfgSpr : Spr
  /-- The host presents its next command, if it has one: `cmd_valid` is 1 when this is set and `State.cmds` is not
  empty. -/
  present : Bool
  /-- `cancel`: the cancellation signal, a level (60_exceptions.md R89). -/
  cancel : Bool
  /-- `wr_fail`: the collaborator's report that the output write of the current DRIVE failed (the oracle `wfail` of
  10_state.md R30). -/
  wrFail : Bool
  deriving DecidableEq, Repr

/-- The state of one instance and of its environment. -/
structure State where
  /-- `SEQ` (10_state.md R24). -/
  seq : Seq
  /-- `PHASE` (10_state.md R14). -/
  phase : Phase
  /-- `OUT[3:0]` (10_state.md R15). -/
  out : Pattern
  /-- `REM` (10_state.md R16). -/
  rem : Count
  /-- `DIR`: true is clockwise (10_state.md R17). -/
  dir : Bool
  /-- `TMR` (10_state.md R18). -/
  tmr : Ticks
  /-- `CFG_INTERVAL`, held as `INTERVAL_TICKS` (10_state.md R19). -/
  cfgInterval : Ticks
  /-- `CFG_SPR` (10_state.md R20). -/
  cfgSpr : Spr
  /-- `STATUS` (10_state.md R22). -/
  status : Code
  /-- `FAULT`, the sticky flag (10_state.md R23). -/
  fault : Bool
  /-- The output port `done`: true after a step in which a command completed (10_state.md R25, 60_exceptions.md R96). -/
  done : Bool
  /-- `CT`, the read-only commutation table of this instance (10_state.md R13, 20_memory.md R32 (a)). -/
  ct : Vector Pattern 8
  /-- The level of `rst` on the step before, by which its release is seen (70_reset_and_hazards.md R104). -/
  rstHeld : Bool
  /-- The levels of the input ports now (10_state.md R25). -/
  inputs : Inputs
  /-- The levels of the input ports on the steps after this one, the next first; when none is left the levels hold
  (assumption 7). -/
  later : List Inputs
  /-- The commands the host has still to issue, the one on the `cmd` port first (70_reset_and_hazards.md R118;
  assumption 8). -/
  cmds : List CmdWord
  /-- How many free values have been drawn: the model's own field (assumptions 2 to 5). -/
  draws : Nat
  deriving DecidableEq, Repr

/-- Why the machine stops with a fault: there is no reason. Every error the spec describes ends the command and leaves
the block in a next state (60_exceptions.md R92, R93), and 70_reset_and_hazards.md R118 gives the block no terminal
state, so this closed inductive has no constructor. -/
inductive Fault where
  deriving DecidableEq, Repr

/-- Why an instruction has no meaning. -/
inductive Refusal where
  /-- Raised by `exec` alone, for an instruction that has no meaning yet; safe, because nothing is then provable of a
  next state. No arm of `exec` raises it now. -/
  | notModelled (mnemonic : String)
  deriving DecidableEq, Repr

/-- The input levels in `State.reset`: `rst` just released, the default configuration on the configuration ports
(00_scope.md R7, R8), no cancellation, no write failure, and the host ready to present a command. DESIGN CHOICE for the
levels the environment is free to choose (assumptions 6 and 7). -/
def Inputs.reset : Inputs where
  rst := false
  cfgNOutputs := BitVec.ofNat 8 Config.nPins
  cfgIntervalTicks := BitVec.ofNat 32 (Config.intervalTicks Config.defaultIntervalNanos)
  cfgSpr := BitVec.ofNat 32 Config.defaultSpr
  present := true
  cancel := false
  wrFail := false

/-- The machine right after a successful INIT with the default configuration (70_reset_and_hazards.md R105, R107). `OUT`,
`REM`, `DIR` and `TMR`, which R107 leaves unspecified, hold free values (assumption 2); the host has issued no command
(assumption 8). -/
def State.reset : State where
  seq := .idle
  phase := 0
  out := Config.freeOut 0
  rem := Config.freeRem 0
  dir := Config.freeDir 0
  tmr := Config.freeTmr 0
  cfgInterval := Inputs.reset.cfgIntervalTicks
  cfgSpr := Inputs.reset.cfgSpr
  status := 0
  fault := false
  done := false
  ct := Config.commutationTable
  rstHeld := false
  inputs := Inputs.reset
  later := []
  cmds := []
  draws := 1

end Sys2Proof.Machine
end

