-- ==== Sys2Proof/Machine/Flags.lean ====
section
/-! DEFINITION. The block has no flags and no condition codes (10_state.md R27). What takes their place are the
sticky bit `FAULT`, the error codes of `STATUS`, and the two tests a rule makes on a counter. -/

namespace Sys2Proof.Machine

/-- The errors of 60_exceptions.md R84. -/
inductive ErrorCause where
  | configError
  | interruptedOperation
  | pinWriteFailure
  | badCommand
  deriving DecidableEq, Repr

/-- The code of a normal completion (60_exceptions.md R84). -/
def okCode : Code := 0

/-- The status code of each error (60_exceptions.md R84). -/
def ErrorCause.code : ErrorCause → Code
  | .configError => 1
  | .interruptedOperation => 2
  | .pinWriteFailure => 3
  | .badCommand => 4

/-- `FAULT` after a completion: set by every non-zero code, cleared by none (10_state.md R23). -/
def stickyFault (fault : Bool) (code : Code) : Bool := fault || code != 0

/-- The remaining count has reached 0 (40_step_and_stop.md R61). -/
def countDone (rem : Count) : Bool := rem == 0

/-- The tick with `TMR = 1`, the last of a wait (40_step_and_stop.md R63). -/
def timerExpires (tmr : Ticks) : Bool := tmr == 1

end Sys2Proof.Machine
end

