-- ==== Sys2Proof/Machine/Operands.lean ====
section
/-! DEFINITION. The operand forms of the commands: the fields of STEP (30_encoding.md R49, R52), the binary64 operands
of the rotation commands (R52), and the arithmetic on them: `ROUND`, the step count, the direction and `RAD2DEG`
(41_rotation_commands.md R75, R76, R77, R80). All arithmetic is exact, on natural numbers: the value of a finite
operand is a whole number of units of `2^(-1075)`. Powers of two are written as shifts, which Lean evaluates at any
exponent. -/

namespace Sys2Proof.Machine

/-! ## The fields of a STEP operand -/

/-- `count = zext(arg[31:0])` (30_encoding.md R52 (a)). -/
def argCount (arg : BitVec 64) : Count := arg.extractLsb' 0 32

/-- `cw = arg[32]` (30_encoding.md R52 (b)). -/
def argCw (arg : BitVec 64) : Bool := arg.getLsbD 32

/-- The reserved bits `arg[63:33]`, which must be 0 (30_encoding.md R49). -/
def argReserved (arg : BitVec 64) : BitVec 31 := arg.extractLsb' 33 31

/-! ## Binary64 operands (30_encoding.md R52 (c)) -/

/-- The sign `s = arg[63]`. -/
def signBit (a : Angle) : Bool := a.getLsbD 63

/-- The exponent field `e = arg[62:52]`. -/
def expField (a : Angle) : Nat := (a.extractLsb' 52 11).toNat

/-- The fraction field `f = arg[51:0]`. -/
def fracField (a : Angle) : Nat := (a.extractLsb' 0 52).toNat

/-- An operand is finite unless `e = 2047`. -/
def isFinite (a : Angle) : Bool := expField a != 2047

/-- `f` for a zero or subnormal (`e = 0`), `2^52 + f` otherwise. -/
def significand (a : Angle) : Nat := if expField a = 0 then fracField a else 2 ^ 52 + fracField a

/-- The power of two, in units of `2^(-1075)`, that multiplies the significand: 1 for `e = 0`, else `e`. -/
def binaryScale (a : Angle) : Nat := if expField a = 0 then 1 else expField a

/-- One, in units of `2^(-1075)`. -/
def unitScale : Nat := 1 <<< 1075

/-- The magnitude of a finite operand in units of `2^(-1075)`: its exact value is
`(-1)^s x magnitude a / unitScale`. -/
def magnitude (a : Angle) : Nat := significand a <<< binaryScale a

/-! ## Rounding -/

/-- `ROUND` of the rational `num / den`: the nearest integer, the even one at a tie (41_rotation_commands.md R77). -/
def roundHalfEven (num den : Nat) : Nat :=
  if 2 * (num % den) < den then num / den
  else if den < 2 * (num % den) then num / den + 1
  else num / den + (num / den) % 2

/-- The exponent at which `num / den` is rounded to binary64: the one that leaves a significand of 53 bits, and 1, the
exponent of the subnormals, below that. -/
def roundScale (num den : Nat) : Nat := max 1 (Nat.log2 ((num <<< 1075) / den) - 52)

/-- The bits `[62:0]` of the binary64 infinity. -/
def infinityBits : Nat := 2047 <<< 52

/-- The bits `[62:0]` of the binary64 number nearest to the non-negative rational `num / den`, ties to even, with
overflow to infinity (IEEE 754; 93_implementation_defined.md G2). A significand that rounds up to `2^53` carries into
the exponent field. -/
def roundMagnitude (num den : Nat) : Nat :=
  min infinityBits
    (((roundScale num den - 1) <<< 52) + roundHalfEven (num <<< 1075) (den <<< roundScale num den))

/-- A binary64 number from its sign and its bits `[62:0]`. -/
def packAngle (sign : Bool) (bits : Nat) : Angle := BitVec.ofBool sign ++ BitVec.ofNat 63 bits

/-- The binary64 number a decimal operand `(-1)^neg x num / den` of ROTATE or ROTATE_RAD denotes: the nearest, ties to
even (30_encoding.md R55). -/
def nearestAngle (neg : Bool) (num den : Nat) : Angle := packAngle neg (roundMagnitude num den)

/-! ## The rotation operands -/

/-- `steps(a) = ROUND(|a| x SPR / 360)`, computed exactly (41_rotation_commands.md R75). -/
def steps (a : Angle) (spr : Spr) : Nat := roundHalfEven (magnitude a * spr.toNat) (360 <<< 1075)

/-- `dir(a)`: clockwise when `a > 0`; both zeros are counter-clockwise (41_rotation_commands.md R76). -/
def dirOf (a : Angle) : Bool := !signBit a && magnitude a != 0

/-- The step count fits `REM` (41_rotation_commands.md R78 (c)). -/
def fitsCount (n : Nat) : Bool := decide (n < 2 ^ 32)

/-- `PI64`, the binary64 number nearest to pi (41_rotation_commands.md R80). -/
def pi64 : Angle := 0x400921FB54442D18#64

/-- `t = fl(r x 180)` (41_rotation_commands.md R80). -/
def times180 (r : Angle) : Angle := packAngle (signBit r) (roundMagnitude (magnitude r * 180) unitScale)

/-- `fl(t / PI64)` for a finite `t` (41_rotation_commands.md R80). -/
def overPi (t : Angle) : Angle := packAngle (signBit t) (roundMagnitude (magnitude t) (magnitude pi64))

/-- `RAD2DEG(r) = fl(fl(r x 180) / PI64)` (41_rotation_commands.md R80). An infinite `t` stays infinite. -/
def rad2deg (r : Angle) : Angle := if isFinite (times180 r) then overPi (times180 r) else times180 r

/-- The same number with the other sign. -/
def negAngle (a : Angle) : Angle := a ^^^ 0x8000000000000000#64

end Sys2Proof.Machine
end

