-- ==== Sys2Proof/Machine/Ops.lean ====
section
/-! DEFINITION. The named operations over the registers, the table space and the output space (00_scope.md R10,
20_memory.md R32 to R34), completing a command, raising an error (60_exceptions.md R92), and INIT
(70_reset_and_hazards.md R105 to R108). -/

namespace Sys2Proof.Machine

/-! ## The two spaces -/

/-- `CT[k]` (20_memory.md R33). -/
def tableRead (ct : Vector Pattern 8) (k : Phase) : Pattern := ct[k.toNat]'k.isLt

/-- `OutWrite(q)`, a write that succeeds: all four bits at once (20_memory.md R34, R37). -/
def outWrite (q : Pattern) (s : State) : State := { s with out := q }

/-- `OutOff()` (20_memory.md R34). -/
def outOff (s : State) : State := { s with out := 0 }

/-- The outputs after a failed write: each bit of `keep` that is 1 leaves the old value, each 0 lets the new one
through (60_exceptions.md R87). -/
def mixPattern (keep old new : Pattern) : Pattern := (old &&& keep) ||| (new &&& ~~~keep)

/-! ## The phase counter -/

/-- `delta(cw)` on the 3-bit register: `+1`, or `-1` = `+7` (00_scope.md R10, R11; 40_step_and_stop.md R62). -/
def delta (cw : Bool) : Phase := if cw then 1 else 7

/-- `PHASE <- (PHASE + delta(DIR)) mod 8` (40_step_and_stop.md R62). -/
def advancePhase (s : State) : State := { s with phase := s.phase + delta s.dir }

/-! ## Completing a command and raising an error -/

/-- `complete(code)` with the `done` pulse (00_scope.md R10, 60_exceptions.md R92, R96). -/
def complete (code : Code) (s : State) : State :=
  { s with status := code, seq := .idle, fault := stickyFault s.fault code, done := true }

/-- `REM` and `TMR` lose their meaning (60_exceptions.md R86, R87; 93_implementation_defined.md U9): they hold free
values. -/
def dropCounters (s : State) : State :=
  { s with rem := Config.freeRem s.draws, tmr := Config.freeTmr s.draws, draws := s.draws + 1 }

/-- The output write of a DRIVE that failed (60_exceptions.md R87). -/
def failedWrite (s : State) : State :=
  { s with out := mixPattern (Config.freeKeep s.draws) s.out (tableRead s.ct s.phase) }

/-- The registers a reset leaves unspecified whether INIT succeeds or fails (70_reset_and_hazards.md R107, R108). -/
def dropDataPath (s : State) : State :=
  { s with
    out := Config.freeOut s.draws, rem := Config.freeRem s.draws, dir := Config.freeDir s.draws
    tmr := Config.freeTmr s.draws, draws := s.draws + 1 }

/-- `raise E`: the effect given in the rule of `E`, ending in `complete(code)` (60_exceptions.md R92). It is the one
place where an error is taken: R85 and R108 (`ConfigError`, which leaves `SEQ = FAILED`), R86 (`InterruptedOperation`), R87
(`PinWriteFailure`), R88 (`BadCommand`). None changes the table or the configuration (R97), and none writes `PHASE`
(assumption 3 for `ConfigError`). There is no return instruction: after the last three the block is in IDLE (R93). -/
def raise (e : ErrorCause) (s : State) : State :=
  match e with
  | .configError => { complete e.code (dropDataPath s) with seq := .failed }
  | .interruptedOperation => complete e.code (dropCounters (outOff s))
  | .pinWriteFailure => complete e.code (dropCounters (failedWrite s))
  | .badCommand => complete e.code s

/-! ## INIT -/

/-- INIT's checks pass (70_reset_and_hazards.md R106). -/
def initOk (p : Inputs) : Bool := p.cfgNOutputs == 4 && p.cfgIntervalTicks != 0 && p.cfgSpr != 0

/-- INIT with the configuration inputs `p`, at the release of reset (70_reset_and_hazards.md R105 to R108). -/
def init (p : Inputs) (s : State) : State :=
  if initOk p then
    { dropDataPath s with
      cfgInterval := p.cfgIntervalTicks, cfgSpr := p.cfgSpr, phase := 0, status := okCode, fault := false
      seq := .idle }
  else raise .configError s

/-! ## The output ports -/

/-- The output ports (10_state.md R25). -/
structure OutputPorts where
  cmdReady : Bool
  out : Pattern
  done : Bool
  status : Code
  fault : Bool
  phase : Phase
  deriving DecidableEq, Repr

/-- What the output ports show: `cmd_ready` is 1 exactly when `SEQ = IDLE`, and the others show their registers
(10_state.md R25; 60_exceptions.md R96, R101). -/
def outputs (s : State) : OutputPorts where
  cmdReady := s.seq == .idle
  out := s.out
  done := s.done
  status := s.status
  fault := s.fault
  phase := s.phase

end Sys2Proof.Machine
end

