-- ==== Sys2Proof/Machine/StepStop.lean ====
section
/-! DEFINITION. The meanings of STOP and STEP (40_step_and_stop.md R58 to R65). A meaning is the command's acceptance,
one atomic transition (30_encoding.md R57); the loop a STEP starts is the sequencer's (Machine/Sequencer.lean). -/

namespace Sys2Proof.Machine

/-- The acceptance of `STEP count, cw`, shared by STEP and by the rotations that expand to it
(40_step_and_stop.md R60, R65). -/
def acceptStep (count : Count) (cw : Bool) (s : State) : State :=
  if countDone count then complete okCode s
  else { s with dir := cw, rem := count, seq := .drive }

/-- `STOP` (40_step_and_stop.md R58). -/
def execStop (s : State) : Host.Outcome State Fault Refusal := .next (complete okCode (outOff s))

/-- `STEP count, cw` (40_step_and_stop.md R60). -/
def execStep (count : Count) (cw : Bool) (s : State) : Host.Outcome State Fault Refusal :=
  .next (acceptStep count cw s)

end Sys2Proof.Machine
end

