-- ==== Sys2Proof/Machine/Rotation.lean ====
section
/-! DEFINITION. The meanings of ROTATE and ROTATE_RAD (41_rotation_commands.md R74 to R80): each is refused with
`BadCommand`, or is the STEP it expands to (30_encoding.md R56). -/

namespace Sys2Proof.Machine

/-- `ROTATE a` on the state: R74, with the refusals of R78 (a) and (c). -/
def rotateBy (a : Angle) (s : State) : State :=
  if isFinite a && fitsCount (steps a s.cfgSpr) then
    acceptStep (BitVec.ofNat 32 (steps a s.cfgSpr)) (dirOf a) s
  else raise .badCommand s

/-- `ROTATE a` (41_rotation_commands.md R74). -/
def execRotate (a : Angle) (s : State) : Host.Outcome State Fault Refusal := .next (rotateBy a s)

/-- `ROTATE_RAD r` (41_rotation_commands.md R79): `ROTATE RAD2DEG(r)`. The refusal of R78 (b), a result that is not
finite, is that of `rotateBy`. -/
def execRotateRad (r : Angle) (s : State) : Host.Outcome State Fault Refusal :=
  .next (if isFinite r then rotateBy (rad2deg r) s else raise .badCommand s)

end Sys2Proof.Machine
end

