-- ==== Sys2Proof/Syntax.lean ====
section
/-! DEFINITION. The abstract command set (30_encoding.md R46): one constructor per row of spec/opcode_table.json. -/

namespace Sys2Proof

/-- The four commands the block executes (30_encoding.md R46). -/
inductive Instr where
  /-- `STOP`: all four outputs low (40_step_and_stop.md R58). -/
  | stop
  /-- `STEP count, cw`: `count` iterations, clockwise when `cw` (40_step_and_stop.md R60). -/
  | step (count : Count) (cw : Bool)
  /-- `ROTATE a`: an angle in degrees, as binary64 (41_rotation_commands.md R74). -/
  | rotate (a : Angle)
  /-- `ROTATE_RAD r`: an angle in radians, as binary64 (41_rotation_commands.md R79). -/
  | rotateRad (r : Angle)
  deriving DecidableEq, Repr

end Sys2Proof
end

