-- ==== Sys2Proof/Machine/Dispatch.lean ====
section
/-! DEFINITION. One arm per constructor of Instr, each one direct call of its meaning. -/

namespace Sys2Proof.Machine

/-- The effect of accepting an instruction (40_step_and_stop.md R58, R60; 41_rotation_commands.md R74, R79). -/
def exec (i : Instr) (s : State) : Host.Outcome State Fault Refusal :=
  match i with
  | .stop => Sys2Proof.Machine.execStop s
  | .step count cw => Sys2Proof.Machine.execStep count cw s
  | .rotate a => Sys2Proof.Machine.execRotate a s
  | .rotateRad r => Sys2Proof.Machine.execRotateRad r s

end Sys2Proof.Machine
end

