-- ==== Sys2Proof/WellFormed.lean ====
section
/-! DEFINITION. Which instructions are well formed: the operand of a rotation command is a finite number
(30_encoding.md R46, R50, R51, R53). STOP and STEP have no further condition: the type of `count` is its 32-bit field,
and a reserved bit of STEP has no place in `Instr`. -/

namespace Sys2Proof

/-- The operand conditions of 30_encoding.md R46, R50 and R51. -/
def Instr.wf : Instr → Bool
  | .stop => true
  | .step _ _ => true
  | .rotate a => Machine.isFinite a
  | .rotateRad r => Machine.isFinite r

end Sys2Proof
end

