-- ==== Sys2Proof/Decode.lean ====
section
/-! DEFINITION. The decoder, total on all 72-bit words, and the encoder, both from 30_encoding.md R47 to R53. -/

namespace Sys2Proof

/-- Why a word is illegal (30_encoding.md R53). That the computed step count of a rotation does not fit `REM` is the
one reason of R53 that the word alone does not show: it is found by the command's meaning. -/
inductive Illegal where
  /-- `op` in 0x04 to 0xFF. -/
  | opcode
  /-- STEP with `arg[63:33] != 0`. -/
  | reservedBits
  /-- ROTATE or ROTATE_RAD with an operand that is an infinity or a NaN. -/
  | notFinite
  deriving DecidableEq, Repr

/-- What a word decodes to. -/
inductive Decoded where
  | instr (i : Instr)
  | illegal (why : Illegal)
  deriving DecidableEq, Repr

/-- `op = cmd[71:64]` (30_encoding.md R47). -/
def opField (w : CmdWord) : BitVec 8 := w.extractLsb' 64 8

/-- `arg = cmd[63:0]` (30_encoding.md R47). -/
def argField (w : CmdWord) : BitVec 64 := w.extractLsb' 0 64

/-- STEP's operand field (30_encoding.md R49). -/
def decodeStep (arg : BitVec 64) : Decoded :=
  if Machine.argReserved arg = 0 then .instr (.step (Machine.argCount arg) (Machine.argCw arg))
  else .illegal .reservedBits

/-- ROTATE's operand field (30_encoding.md R50). -/
def decodeRotate (arg : BitVec 64) : Decoded :=
  if Machine.isFinite arg then .instr (.rotate arg) else .illegal .notFinite

/-- ROTATE_RAD's operand field (30_encoding.md R51). -/
def decodeRotateRad (arg : BitVec 64) : Decoded :=
  if Machine.isFinite arg then .instr (.rotateRad arg) else .illegal .notFinite

/-- The opcode map (30_encoding.md R53). STOP ignores its operand field (R48). -/
def decode (w : CmdWord) : Decoded :=
  if opField w = 0x00#8 then .instr .stop
  else if opField w = 0x01#8 then decodeStep (argField w)
  else if opField w = 0x02#8 then decodeRotate (argField w)
  else if opField w = 0x03#8 then decodeRotateRad (argField w)
  else .illegal .opcode

/-- The opcode of each command (30_encoding.md R53). -/
def Instr.opcode : Instr → BitVec 8
  | .stop => 0x00#8
  | .step _ _ => 0x01#8
  | .rotate _ => 0x02#8
  | .rotateRad _ => 0x03#8

/-- The operand field of each command, in canonical form (30_encoding.md R48 to R51). -/
def Instr.operand : Instr → BitVec 64
  | .stop => 0#64
  | .step count cw => 0#31 ++ BitVec.ofBool cw ++ count
  | .rotate a => a
  | .rotateRad r => r

/-- The command word of an instruction (30_encoding.md R47 to R51). -/
def encode (i : Instr) : CmdWord := i.opcode ++ i.operand

/-- The instruction the decoder reads from a row of spec/opcode_table.json: the 72 bits of the word are numbered with
bit 0 the least significant, as the table numbers them; bits at and above `nbits` are 0. -/
def decodeTableWord (nbits w : Nat) : Option Instr :=
  match decode (BitVec.ofNat 72 (w % 2 ^ nbits)) with
  | .instr i => some i
  | .illegal _ => none

end Sys2Proof
end

