-- ==== Sys2Proof/Machine/Sequencer.lean ====
section
/-! DEFINITION. What the block does on a step in which it accepts no command: the iteration (40_step_and_stop.md R61),
the tick of the wait (R63), reset (70_reset_and_hazards.md R104), and nothing in IDLE and FAILED; the command port
(30_encoding.md R57); and what every step does to the ports. -/

namespace Sys2Proof.Machine

/-! ## The ports -/

/-- The `done` pulse lasts one step (10_state.md R25). -/
def startTick (s : State) : State := { s with done := false }

/-- The input levels of the next step; when none is listed the levels hold (assumption 7). -/
def nextInputs (s : State) : State :=
  match s.later with
  | [] => s
  | p :: ps => { s with inputs := p, later := ps }

/-- The end of a step: a next state meets the input levels of the next step. -/
def finishTick (o : Host.Outcome State Fault Refusal) : Host.Outcome State Fault Refusal :=
  match o with
  | .next s => .next (nextInputs s)
  | .fault f => .fault f
  | .refused r => .refused r

/-- The block is out of reset and in IDLE, and the host presents a command if it has one (30_encoding.md R57). -/
def accepting (s : State) : Bool :=
  !s.inputs.rst && !s.rstHeld && s.seq == .idle && s.inputs.present

/-- The command word accepted on this step: `cmd_valid` and `cmd_ready` are both 1 (10_state.md R25, 30_encoding.md
R57). -/
def fetch (s : State) : Option CmdWord := if accepting s then s.cmds.head? else none

/-- The accepted command leaves the port. -/
def takeCommand (s : State) : State := { s with cmds := s.cmds.tail }

/-! ## The loop of a STEP -/

/-- The iteration (40_step_and_stop.md R61, R64). -/
def iterate (s : State) : State :=
  if s.inputs.wrFail then raise .pinWriteFailure s
  else
    let t := advancePhase (outWrite (tableRead s.ct s.phase) s)
    if countDone (t.rem - 1) then complete okCode { t with rem := t.rem - 1 }
    else { t with rem := t.rem - 1, tmr := t.cfgInterval, seq := .wait }

/-- One tick of the inter-step wait (40_step_and_stop.md R63); a cancellation wins over expiry (60_exceptions.md R91). -/
def waitTick (s : State) : State :=
  if s.inputs.cancel then raise .interruptedOperation s
  else if timerExpires s.tmr then { s with tmr := 0, seq := .drive }
  else { s with tmr := s.tmr - 1 }

/-! ## The step without a command -/

/-- What the block does when it is out of reset and accepts no command (40_step_and_stop.md R73). -/
def seqTick (s : State) : State :=
  match s.seq with
  | .failed => s
  | .idle => s
  | .drive => iterate s
  | .wait => waitTick s

/-- `rst` is 1: the block is held in reset (70_reset_and_hazards.md R104). -/
def holdReset (s : State) : State := { s with rstHeld := true }

/-- `rst` has been released. -/
def releaseReset (s : State) : State := { s with rstHeld := false }

/-- A step without a command: held in reset; the release of reset, which performs INIT (70_reset_and_hazards.md R104);
or the sequencer's own transition. -/
def runTick (s : State) : State :=
  if s.inputs.rst then holdReset s
  else if s.rstHeld then init s.inputs (releaseReset s)
  else seqTick s

/-! ## Placing a command where the next step accepts it -/

/-- The command word whose bits are those of `w` below `nbits` (spec/opcode_table.json numbers bit 0 as the least
significant). -/
def tableWord (nbits w : Nat) : CmdWord := BitVec.ofNat 72 (w % 2 ^ nbits)

/-- The word `w` presented to a block that is ready for it. -/
def presentWord (w : CmdWord) (s : State) : State :=
  { s with
    cmds := w :: s.cmds, seq := .idle, rstHeld := false
    inputs := { s.inputs with rst := false, present := true } }

end Sys2Proof.Machine
end

