-- ==== Sys2Proof/Machine/Step.lean ====
section
/-! DEFINITION. One step of the machine: one transition of 40_step_and_stop.md R72 and R73. -/

namespace Sys2Proof.Machine

/-- The effect of the accepted word on the state: its instruction's meaning, or `BadCommand` for an illegal word
(60_exceptions.md R88). -/
def execWord (w : CmdWord) (s : State) : Host.Outcome State Fault Refusal :=
  match decode w with
  | .instr i => exec i s
  | .illegal _ => .next (raise .badCommand s)

/-- One step: the command accepted, if one is, and otherwise the block's own transition. -/
def step (s : State) : Host.Outcome State Fault Refusal :=
  match fetch s with
  | some w => finishTick (execWord w (takeCommand (startTick s)))
  | none => finishTick (.next (runTick (startTick s)))

/-- `s` with the instruction whose bits are `w` presented on the command port of a block that is ready to accept it. -/
def State.withFetchWord (s : State) (nbits w : Nat) : State := presentWord (tableWord nbits w) s

end Sys2Proof.Machine
end

