-- ==== Sys2Proof/Safety.lean ====
section
/-! DEFINITION. What claims are stated in: runs and their traces, the invariants of 10_state.md R31, the history those
invariants speak of, and the exact value of a binary64 operand. Nothing here is part of the machine. -/

namespace Sys2Proof.Machine

/-! ## Runs -/

/-- `k` steps, ending at the first stop. -/
def runSteps : Nat → State → Host.Outcome State Fault Refusal
  | 0, s => .next s
  | k + 1, s =>
    match step s with
    | .next t => runSteps k t
    | .fault f => .fault f
    | .refused r => .refused r

/-- `p` holds of the first `k` states of the run from `s`: of `s` and of the states before each of the steps 2 to
`k`. -/
def holdsFor (p : State → Bool) : Nat → State → Bool
  | 0, _ => true
  | k + 1, s =>
    p s && match step s with
      | .next t => holdsFor p k t
      | .fault _ => true
      | .refused _ => true

/-- `rst` is low and was low on the step before: the step is the sequencer's own. -/
def active (s : State) : Bool := !s.inputs.rst && !s.rstHeld

/-- No reset, no failure of the write of this DRIVE, no cancellation of this WAIT (40_step_and_stop.md R66: "no
cancellation and no write failure occur"). -/
def undisturbed (s : State) : Bool :=
  active s && !(s.seq == .drive && s.inputs.wrFail) && !(s.seq == .wait && s.inputs.cancel)

/-- No reset on this step or on any later one. -/
def neverReset (s : State) : Bool := active s && s.later.all (fun p => !p.rst)

/-- The number of steps a `STEP n` takes with an interval of `ticks`: the acceptance, `n` iterations, and `n - 1` waits
(40_step_and_stop.md R64, R66). -/
def stepLength (n ticks : Nat) : Nat := 1 + n + (n - 1) * ticks

/-! ## Traces -/

/-- The letters of 40_step_and_stop.md and 95_test_vectors.md: `W(q)`, `Z`, `T`, `D(s)`, `X`, `t`. -/
inductive Event where
  | write (q : Pattern)
  | outOff
  | waited
  | completed (code : Code)
  | failedWrite
  | waitCut
  deriving DecidableEq, Repr

/-- The word accepted on this step is a STOP. -/
def stopAccepted (s : State) : Bool :=
  match fetch s with
  | none => false
  | some w => decode w == .instr .stop

/-- The letters, less `D`, of the step from `s` to `t`. -/
def outputEvents (s t : State) : List Event :=
  if !active s then []
  else match s.seq with
    | .failed => []
    | .idle => if stopAccepted s then [.outOff] else []
    | .drive => if s.inputs.wrFail then [.failedWrite] else [.write t.out]
    | .wait => if s.inputs.cancel then [.waitCut, .outOff] else if t.seq == .drive then [.waited] else []

/-- The letters of the step from `s` to `t`. -/
def stepEvents (s t : State) : List Event :=
  outputEvents s t ++ if t.done then [.completed t.status] else []

/-- The trace of the first `k` steps from `s`. -/
def trace : Nat → State → List Event
  | 0, _ => []
  | k + 1, s =>
    match step s with
    | .next t => stepEvents s t ++ trace k t
    | .fault _ => []
    | .refused _ => []

/-- The entry of the table `k` positions from `p` in the direction `cw`. -/
def entryFrom (ct : Vector Pattern 8) (p : Phase) (cw : Bool) (k : Nat) : Pattern :=
  tableRead ct (p + delta cw * BitVec.ofNat 3 k)

/-- The first `n` writes of a STEP from `p` with a whole wait between each two (40_step_and_stop.md R66). -/
def writesFrom (ct : Vector Pattern 8) (p : Phase) (cw : Bool) (n : Nat) : List Event :=
  ((List.range n).map fun k => Event.write (entryFrom ct p cw k)).intersperse .waited

/-! ## What a command expands to -/

/-- The number of iterations an accepted instruction commands: that of the STEP it is or expands to
(30_encoding.md R56), and 0 for a STOP and for a refused rotation. -/
def commandedCount (spr : Spr) : Instr → Nat
  | .stop => 0
  | .step count _ => count.toNat
  | .rotate a => if isFinite a && fitsCount (steps a spr) then steps a spr else 0
  | .rotateRad r =>
    if isFinite r && isFinite (rad2deg r) && fitsCount (steps (rad2deg r) spr) then steps (rad2deg r) spr else 0

/-! ## The invariants of 10_state.md R31 that speak of the registers alone -/

/-- I5 of 10_state.md R31, with what it rests on (a configured interval of at least one tick), the configuration R106
lets through, the codes `STATUS` can hold (R22), and FAILED as 70_reset_and_hazards.md R108 leaves it. I1 is the type of
`PHASE`. -/
structure Inv (s : State) : Prop where
  /-- A block that has been initialised holds a positive interval and a positive `SPR`. -/
  configured : s.seq ≠ .failed → s.cfgInterval ≠ 0 ∧ s.cfgSpr ≠ 0
  /-- I5, first half. -/
  drive : s.seq = .drive → 1 ≤ s.rem.toNat
  /-- I5, second half. -/
  wait : s.seq = .wait → 1 ≤ s.rem.toNat ∧ 1 ≤ s.tmr.toNat ∧ s.tmr.toNat ≤ s.cfgInterval.toNat
  /-- Codes 5 to 7 are never written. -/
  code : s.status.toNat ≤ 4
  /-- A non-zero code has set `FAULT`. -/
  recorded : s.status ≠ 0 → s.fault = true
  /-- FAILED is reported. -/
  failed : s.seq = .failed → s.status = 1 ∧ s.fault = true

/-! ## The history the invariants I2, I3, I4 and I6 speak of -/

/-- The most recent action that wrote `OUT` since reset. -/
inductive OutWriter where
  /-- `OUT` has not been written. -/
  | none
  /-- A successful iteration, in the direction `cw`. -/
  | iteration (cw : Bool)
  /-- `OutOff`: STOP or cancellation. -/
  | off
  /-- A failed DRIVE. -/
  | failedDrive
  deriving DecidableEq, Repr

/-- What R31 asks of the past. -/
structure History where
  /-- The most recent action that wrote `OUT`. -/
  writer : OutWriter
  /-- A STEP has been accepted and has not made its first iteration. -/
  fresh : Bool
  /-- Every command since INIT has completed with code 0. -/
  clean : Bool
  deriving DecidableEq, Repr

/-- Nothing has happened since reset. -/
def History.start : History := { writer := .none, fresh := false, clean := true }

/-- Who writes `OUT` on the step from `s`, if anyone does. -/
def writerOf (before : OutWriter) (s : State) : OutWriter :=
  match s.seq with
  | .failed => before
  | .idle => if stopAccepted s then .off else before
  | .drive => if s.inputs.wrFail then .failedDrive else .iteration s.dir
  | .wait => if s.inputs.cancel then .off else before

/-- The history after the step from `s` to `t`. A step in which reset is asserted changes nothing in it, and the
release of reset begins it again. -/
def History.after (h : History) (s t : State) : History :=
  if s.inputs.rst then h
  else if s.rstHeld then History.start
  else
    { writer := writerOf h.writer s
      fresh := if s.seq = .drive then false else h.fresh || (s.seq == .idle && t.seq == .drive)
      clean := h.clean && (!t.done || t.status == 0) }

/-- The history after `k` steps from `s`, whose history is `h`. -/
def historyAlong : Nat → History → State → History
  | 0, h, _ => h
  | k + 1, h, s =>
    match step s with
    | .next t => historyAlong k (h.after s t) t
    | .fault _ => h
    | .refused _ => h

/-- I2, I3, I4 and I6 of 10_state.md R31. I3 is stated for the direction of the last iteration, which `DIR` holds except
between the acceptance of a STEP and its first iteration (assumption 15). -/
structure HistoryInv (h : History) (s : State) : Prop where
  /-- I2: only all-low, table entries, and the mixture of a failed write are ever on the outputs. -/
  legal : h.writer ≠ .none → s.out = 0 ∨ (∃ k : Phase, s.out = tableRead s.ct k) ∨ h.writer = .failedDrive
  /-- I3: the outputs show the pattern one position behind `PHASE` in the direction of the last iteration. -/
  behind : ∀ cw, h.writer = .iteration cw → s.out = tableRead s.ct (s.phase - delta cw)
  /-- `DIR` is the direction of the last iteration unless a STEP has just been accepted. -/
  direction : ∀ cw, h.writer = .iteration cw → h.fresh = false → s.dir = cw
  /-- A STEP that has not made its first iteration is in DRIVE, or was there when reset was asserted. -/
  fresh : h.fresh = true → s.seq = .drive
  /-- I4. -/
  off : h.writer = .off → s.out = 0
  /-- I6. -/
  clean : s.fault = false → h.clean = true

/-! ## The exact value of a binary64 operand -/

/-- The rational number a finite binary64 operand stands for, field by field as 30_encoding.md R52 (c) gives it. -/
def angleValue (a : Angle) : ℚ :=
  (if signBit a then -1 else 1) *
    (if expField a = 0 then (fracField a : ℚ) * 2 ^ (-1074 : ℤ)
     else (2 ^ 52 + (fracField a : ℚ)) * 2 ^ ((expField a : ℤ) - 1075))

/-- `t` is the rational `x` rounded to binary64, to nearest, ties to even (93_implementation_defined.md G2): finite unless
`x` reaches half a unit beyond the largest finite number, and then an infinity; no finite number is nearer, and at a tie
the significand is even. -/
structure IsRounding (x : ℚ) (t : Angle) : Prop where
  overflow : isFinite t = true ↔ |x| < 2 ^ 1024 - 2 ^ 970
  infinity : isFinite t = false → fracField t = 0
  nearest : isFinite t = true → ∀ b : Angle, isFinite b = true → |angleValue t - x| ≤ |angleValue b - x|
  tie : isFinite t = true → ∀ b : Angle, isFinite b = true → angleValue b ≠ angleValue t →
    |angleValue t - x| = |angleValue b - x| → Even (significand t)

end Sys2Proof.Machine
end

