-- ==== Sys2Proof/Certificates/Slice0/Obligations.lean ====
section
/-! DEFINITION. The statements for the provers. Each docstring says which sentence of the spec it formalises, or that it
rests on a choice of the model's. In a statement about one step, `nextInputs` is what the step adds around the effect
(the input levels of the next step), and `done := false` is the end of the last step's pulse. -/

open Sys2Proof Sys2Proof.Machine

/-! ## Reset and INIT -/

/-- After reset with the default configuration the block is in IDLE at phase 0 with code 0, no fault recorded and
`SPR = 4096` (10_state.md R14, R20, R22, R23, R24). That `State.reset` is the state after an INIT with the default
configuration is the model's choice (assumption 6). -/
def Obligations.ResetIsIdleAtPhaseZero : Prop :=
  State.reset.seq = .idle ∧ State.reset.phase = 0 ∧ State.reset.status = 0 ∧ State.reset.fault = false ∧
    State.reset.cfgSpr = 4096

/-- While `rst` is 1 the block does nothing; on its release INIT is performed once with the inputs sampled then
(70_reset_and_hazards.md R104). That the registers keep their values while `rst` is 1 is the model's choice
(assumption 9). -/
def Obligations.ResetHoldsThenInitialises : Prop :=
  (∀ s : State, s.inputs.rst = true → step s = .next (nextInputs { s with rstHeld := true, done := false })) ∧
  (∀ s : State, s.inputs.rst = false → s.rstHeld = true →
    step s = .next (nextInputs (init s.inputs { s with rstHeld := false, done := false })))

/-- The registers after a successful INIT, and the table untouched (70_reset_and_hazards.md R105, R107). `OUT`, `REM`,
`DIR` and `TMR` may hold anything. -/
def Obligations.GoodConfigurationInitialises : Prop :=
  ∀ s : State, s.inputs.rst = false → s.rstHeld = true →
    s.inputs.cfgNOutputs = 4 → s.inputs.cfgIntervalTicks ≠ 0 → s.inputs.cfgSpr ≠ 0 →
    ∃ t, step s = .next t ∧ t.seq = .idle ∧ t.phase = 0 ∧ t.status = 0 ∧ t.fault = false ∧
      t.cfgInterval = s.inputs.cfgIntervalTicks ∧ t.cfgSpr = s.inputs.cfgSpr ∧ t.ct = s.ct ∧ t.rstHeld = false

/-- INIT raises `ConfigError` exactly when one of the three checks fails (70_reset_and_hazards.md R106). -/
def Obligations.ConfigErrorExactlyOnAFailedCheck : Prop :=
  ∀ s : State, s.inputs.rst = false → s.rstHeld = true →
    ∃ t, step s = .next t ∧
      ((t.seq = .failed ∧ t.status = 1 ∧ t.fault = true) ↔
        (s.inputs.cfgNOutputs ≠ 4 ∨ s.inputs.cfgIntervalTicks = 0 ∨ s.inputs.cfgSpr = 0))

/-- After a failed INIT: FAILED with code 1 and the fault recorded; and in FAILED the block accepts no command, writes
no output, ignores `cancel` and stays as it is until a reset (70_reset_and_hazards.md R108, 60_exceptions.md R85). -/
def Obligations.FailedInitIsForGood : Prop :=
  (∀ s : State, s.inputs.rst = false → s.rstHeld = true →
    s.inputs.cfgNOutputs ≠ 4 ∨ s.inputs.cfgIntervalTicks = 0 ∨ s.inputs.cfgSpr = 0 →
    ∃ t, step s = .next t ∧ t.seq = .failed ∧ t.status = 1 ∧ t.fault = true) ∧
  (∀ s : State, s.seq = .failed → active s = true →
    (outputs s).cmdReady = false ∧ step s = .next (nextInputs { s with done := false }))

/-! ## STOP and STEP -/

/-- `STOP` forces all four outputs low and completes with code 0; it writes `OUT` and `STATUS` and nothing else
(40_step_and_stop.md R58). Every word with `op = 0x00` is a STOP. The `done` pulse is 60_exceptions.md R96. -/
def Obligations.StopForcesOutputsLow : Prop :=
  (∀ s : State, s.seq = .idle →
    exec .stop s = .next { s with out := 0, status := 0, done := true }) ∧
  (∀ arg : BitVec 64, decode (0x00#8 ++ arg) = .instr .stop)

/-- `STOP; STOP` leaves the same state as `STOP`, and after any STOP and after any cancellation the outputs are low
(40_step_and_stop.md R59, which the spec derives from R58). -/
def Obligations.StopIsIdempotent : Prop :=
  (∀ s : State, ∃ t, exec .stop s = .next t ∧ exec .stop t = .next t ∧ t.out = 0) ∧
  (∀ s : State, active s = true → s.seq = .wait → s.inputs.cancel = true → ∃ t, step s = .next t ∧ t.out = 0)

/-- The acceptance of `STEP count, cw`: with `count` at least 1, `DIR`, `REM` and `SEQ` are written and nothing else; with
`count = 0` it completes with code 0 (40_step_and_stop.md R60). -/
def Obligations.StepAcceptanceStartsTheLoop : Prop :=
  ∀ (s : State) (count : Count) (cw : Bool), s.seq = .idle →
    (count ≠ 0 → exec (.step count cw) s = .next { s with dir := cw, rem := count, seq := .drive }) ∧
    (count = 0 → exec (.step count cw) s = .next { s with status := 0, done := true })

/-- `STEP 0`: the only effect is `STATUS <- 0` (40_step_and_stop.md R65), with the `done` pulse of its completion. -/
def Obligations.StepOfZeroOnlyReportsSuccess : Prop :=
  ∀ (s : State) (cw : Bool), s.seq = .idle →
    exec (.step 0 cw) s = .next { s with status := 0, done := true }

/-- The iteration: the pattern at `PHASE` is written, then `PHASE` advances and `REM` is decremented; the last iteration
completes with code 0 and no other does, but loads the timer (40_step_and_stop.md R61); a failed write raises
`PinWriteFailure` and does not advance `PHASE`. -/
def Obligations.IterationWritesThenAdvances : Prop :=
  ∀ s : State, active s = true → s.seq = .drive →
    (s.inputs.wrFail = false → s.rem ≠ 1 →
      step s = .next (nextInputs { s with
        out := tableRead s.ct s.phase, phase := s.phase + (if s.dir then 1 else -1), rem := s.rem - 1
        tmr := s.cfgInterval, seq := .wait, done := false })) ∧
    (s.inputs.wrFail = false → s.rem = 1 →
      step s = .next (nextInputs { s with
        out := tableRead s.ct s.phase, phase := s.phase + (if s.dir then 1 else -1), rem := 0
        status := 0, seq := .idle, done := true })) ∧
    (s.inputs.wrFail = true →
      ∃ t, step s = .next t ∧ t.phase = s.phase ∧ t.seq = .idle ∧ t.status = 3 ∧ t.fault = true)

/-- The phase advance on integers: `(PHASE + delta(DIR)) mod 8`, with a result in `[0, 8)` also for the decrement
(40_step_and_stop.md R62). -/
def Obligations.PhaseAdvancesModuloEight : Prop :=
  ∀ s : State, active s = true → s.seq = .drive → s.inputs.wrFail = false →
    ∃ t, step s = .next t ∧ 0 ≤ (t.phase.toNat : ℤ) ∧ (t.phase.toNat : ℤ) < 8 ∧
      (t.phase.toNat : ℤ) = ((s.phase.toNat : ℤ) + (if s.dir then 1 else -1)) % 8

/-- One tick of the wait without a cancellation, and a cancellation wins over expiry (40_step_and_stop.md R63,
60_exceptions.md R91). -/
def Obligations.WaitTickCountsDown : Prop :=
  ∀ s : State, active s = true → s.seq = .wait →
    (s.inputs.cancel = false → s.tmr = 1 →
      step s = .next (nextInputs { s with tmr := 0, seq := .drive, done := false })) ∧
    (s.inputs.cancel = false → s.tmr ≠ 1 →
      step s = .next (nextInputs { s with tmr := s.tmr - 1, done := false })) ∧
    (s.inputs.cancel = true →
      ∃ t, step s = .next t ∧ t.seq = .idle ∧ t.out = 0 ∧ t.status = 2 ∧ t.fault = true)

/-- A wait that nothing disturbs lasts exactly the number of ticks in `TMR`: until then the block is in WAIT with the
outputs and the phase held, and then it is in DRIVE with `TMR = 0` (40_step_and_stop.md R63). -/
def Obligations.WaitLastsExactlyTheInterval : Prop :=
  ∀ (s : State) (j : Nat), s.seq = .wait → s.tmr ≠ 0 → j ≤ s.tmr.toNat → holdsFor undisturbed j s = true →
    ∃ t, runSteps j s = .next t ∧ t.out = s.out ∧ t.phase = s.phase ∧ t.rem = s.rem ∧ t.dir = s.dir ∧
      t.tmr.toNat = s.tmr.toNat - j ∧ t.seq = (if j = s.tmr.toNat then .drive else .wait)

/-! ## Errors and cancellation -/

/-- The cancellation of a STEP. One transition: the outputs low, code 2, `FAULT`, IDLE, with `PHASE` and `DIR` kept. And
the big-step form the rule derives: cancelled in its j-th wait, after `i` whole ticks of it, a `STEP n, cw` has made `j` iterations
(60_exceptions.md R86). -/
def Obligations.CancellationForcesOutputsLow : Prop :=
  (∀ s : State, active s = true → s.seq = .wait → s.inputs.cancel = true →
    ∃ t, step s = .next t ∧ t.out = 0 ∧ t.status = 2 ∧ t.fault = true ∧ t.seq = .idle ∧ t.done = true ∧
      t.phase = s.phase ∧ t.dir = s.dir ∧ t.ct = s.ct ∧ t.cfgInterval = s.cfgInterval ∧ t.cfgSpr = s.cfgSpr) ∧
  (∀ (s : State) (w : CmdWord) (n : Count) (cw : Bool) (j i : Nat) (t : State),
    fetch s = some w → decode w = .instr (.step n cw) → 1 ≤ j → j + 1 ≤ n.toNat → i < s.cfgInterval.toNat →
    holdsFor undisturbed (1 + j + (j - 1) * s.cfgInterval.toNat + i) s = true →
    runSteps (1 + j + (j - 1) * s.cfgInterval.toNat + i) s = .next t →
    active t = true → t.inputs.cancel = true →
    t.seq = .wait ∧
    ∃ u, step t = .next u ∧ u.phase = s.phase + delta cw * BitVec.ofNat 3 j ∧ u.out = 0 ∧ u.status = 2 ∧
      u.fault = true ∧ u.seq = .idle ∧ u.dir = cw ∧
      trace (1 + j + (j - 1) * s.cfgInterval.toNat + i + 1) s =
        writesFrom s.ct s.phase cw j ++ [.waitCut, .outOff, .completed 2])

/-- A failed pattern write. One transition: each output keeps its old value or takes the new one, `PHASE` is not
advanced, code 3, `FAULT`, IDLE. And the big-step form: failing at its j-th write, a `STEP n, cw` has advanced `j - 1`
times (60_exceptions.md R87). -/
def Obligations.FailedWriteLeavesAMixture : Prop :=
  (∀ s : State, active s = true → s.seq = .drive → s.inputs.wrFail = true →
    ∃ t, step s = .next t ∧
      (∀ i, i < 4 → t.out.getLsbD i = s.out.getLsbD i ∨ t.out.getLsbD i = (tableRead s.ct s.phase).getLsbD i) ∧
      t.phase = s.phase ∧ t.status = 3 ∧ t.fault = true ∧ t.seq = .idle ∧ t.done = true ∧ t.dir = s.dir ∧
      t.ct = s.ct ∧ t.cfgInterval = s.cfgInterval ∧ t.cfgSpr = s.cfgSpr) ∧
  (∀ (s : State) (w : CmdWord) (n : Count) (cw : Bool) (j : Nat) (t : State),
    fetch s = some w → decode w = .instr (.step n cw) → 1 ≤ j → j ≤ n.toNat → s.cfgInterval ≠ 0 →
    holdsFor undisturbed (j + (j - 1) * s.cfgInterval.toNat) s = true →
    runSteps (j + (j - 1) * s.cfgInterval.toNat) s = .next t → active t = true → t.inputs.wrFail = true →
    t.seq = .drive ∧
    ∃ u, step t = .next u ∧ u.phase = s.phase + delta cw * BitVec.ofNat 3 (j - 1) ∧ u.status = 3 ∧
      u.fault = true ∧ u.seq = .idle ∧ u.dir = cw)

/-- `cancel` raises `InterruptedOperation` in WAIT; in DRIVE, in IDLE, in FAILED and in reset it is not looked at and
not remembered: the step with the level changed differs from the step in the input levels alone (60_exceptions.md
R89). -/
def Obligations.CancelIsLookedAtOnlyInWait : Prop :=
  (∀ s : State, active s = true → s.seq = .wait → s.inputs.cancel = true → ∃ t, step s = .next t ∧ t.status = 2) ∧
  (∀ (s : State) (level : Bool), ¬(active s = true ∧ s.seq = .wait) →
    ∃ t u, step s = .next t ∧ step { s with inputs := { s.inputs with cancel := level } } = .next u ∧
      u = { t with inputs := u.inputs })

/-- An illegal word that is accepted changes `STATUS` and `FAULT` and nothing else, and leaves the port: one that decodes
to nothing, and a rotation whose step count does not fit or, in radians, whose degrees are not finite (60_exceptions.md
R88, 30_encoding.md R53, 41_rotation_commands.md R78). -/
def Obligations.IllegalWordOnlyReportsBadCommand : Prop :=
  ∀ (s : State) (w : CmdWord), fetch s = some w →
    ((∃ why, decode w = .illegal why) ∨
      (∃ a, decode w = .instr (.rotate a) ∧ 2 ^ 32 ≤ steps a s.cfgSpr) ∨
      (∃ r, decode w = .instr (.rotateRad r) ∧
        (isFinite (rad2deg r) = false ∨ 2 ^ 32 ≤ steps (rad2deg r) s.cfgSpr))) →
    step s = .next (nextInputs { s with cmds := s.cmds.tail, status := 4, fault := true, done := true })

/-- The refusals of the rotations, before anything else changes: an operand that is not finite, a `RAD2DEG` that is not
finite, a step count of 2^32 or more (41_rotation_commands.md R78). -/
def Obligations.UnfitRotationIsRefused : Prop :=
  ∀ s : State, s.seq = .idle →
    (∀ a : Angle, isFinite a = false ∨ 2 ^ 32 ≤ steps a s.cfgSpr →
      exec (.rotate a) s = .next { s with status := 4, fault := true, done := true }) ∧
    (∀ r : Angle, isFinite r = false ∨ isFinite (rad2deg r) = false ∨ 2 ^ 32 ≤ steps (rad2deg r) s.cfgSpr →
      exec (.rotateRad r) s = .next { s with status := 4, fault := true, done := true })

/-- What errors never do (60_exceptions.md R97): no error changes the table or the configuration or resets `PHASE`; none
but `InterruptedOperation` forces the outputs low; none clears `FAULT`. The first part is about the errors a command ends
in, the second about `ConfigError`, after which `OUT` may hold anything (70_reset_and_hazards.md R108). That no error
writes `PHASE` after a failed INIT is the model's choice (assumption 3). -/
def Obligations.ErrorsKeepTableConfigurationAndPhase : Prop :=
  (∀ s t : State, active s = true → step s = .next t → t.done = true → t.status ≠ 0 →
    t.ct = s.ct ∧ t.cfgInterval = s.cfgInterval ∧ t.cfgSpr = s.cfgSpr ∧ t.phase = s.phase ∧ t.fault = true ∧
    (t.status = 2 → t.out = 0) ∧
    (t.status ≠ 2 → ∀ i, i < 4 →
      t.out.getLsbD i = s.out.getLsbD i ∨ t.out.getLsbD i = (tableRead s.ct s.phase).getLsbD i) ∧
    (t.status = 4 → t.out = s.out)) ∧
  (∀ s : State, s.inputs.rst = false → s.rstHeld = true →
    s.inputs.cfgNOutputs ≠ 4 ∨ s.inputs.cfgIntervalTicks = 0 ∨ s.inputs.cfgSpr = 0 →
    ∃ t, step s = .next t ∧ t.status = 1 ∧ t.ct = s.ct ∧ t.cfgInterval = s.cfgInterval ∧ t.cfgSpr = s.cfgSpr ∧
      t.phase = s.phase ∧ t.fault = true)

/-- The sticky flag: set by every completion with a non-zero code, cleared by no command and while `rst` is 1 not at all,
and after INIT 0 or 1 as INIT succeeds or fails (10_state.md R23). -/
def Obligations.FaultIsSticky : Prop :=
  ∀ s : State,
    (s.inputs.rst = true → ∃ t, step s = .next t ∧ t.fault = s.fault) ∧
    (active s = true → ∃ t, step s = .next t ∧ t.fault = (s.fault || (t.done && t.status != 0))) ∧
    (s.inputs.rst = false → s.rstHeld = true → ∃ t, step s = .next t ∧ t.fault = !initOk s.inputs)

/-- `done` is pulsed on every completion and only then: the step ends in IDLE a command that ran or that it accepted;
and `STATUS` changes on no other step (60_exceptions.md R96, 10_state.md R22). -/
def Obligations.DonePulsesExactlyOnCompletion : Prop :=
  ∀ s : State, active s = true → ∃ t, step s = .next t ∧
    (t.done = true ↔
      t.seq = .idle ∧ (s.seq = .drive ∨ s.seq = .wait ∨ (s.seq = .idle ∧ (fetch s).isSome = true))) ∧
    (t.done = false → t.status = s.status) ∧
    (t.done = true → t.status = 0 ∨ t.status = 2 ∨ t.status = 3 ∨ t.status = 4) ∧
    (outputs t).done = t.done ∧ (outputs t).status = t.status ∧ (outputs t).fault = t.fault

/-! ## The rotations -/

/-- The operands (30_encoding.md R52): `count` is the low 32 bits and `cw` the bit above; a binary64 operand is finite
unless its exponent field is 2047, when the word is illegal, and its value, field by field as the rule gives it, is the sign times the whole number
of units of `2^(-1075)` the model computes with. -/
def Obligations.OperandsAreReadExactly : Prop :=
  (∀ arg : BitVec 64, (argCount arg).toNat = arg.toNat % 2 ^ 32 ∧ argCw arg = decide (arg.toNat / 2 ^ 32 % 2 = 1)) ∧
  (∀ a : Angle, isFinite a = false ↔ a.toNat / 2 ^ 52 % 2 ^ 11 = 2047) ∧
  (∀ arg : BitVec 64, arg.toNat / 2 ^ 52 % 2 ^ 11 = 2047 →
    decode (0x02#8 ++ arg) = .illegal .notFinite ∧ decode (0x03#8 ++ arg) = .illegal .notFinite) ∧
  (∀ a : Angle, isFinite a = true →
    angleValue a = (if signBit a then -1 else 1) * ((magnitude a : ℚ) / 2 ^ 1075)) ∧
  angleValue 0x0000000000000000#64 = 0 ∧ angleValue 0x8000000000000000#64 = 0

/-- `ROUND` is the nearest integer, and the even one at a tie, with the rule's three examples (41_rotation_commands.md
R77). -/
def Obligations.RoundIsNearestTiesToEven : Prop :=
  (∀ num den : Nat, den ≠ 0 →
    (∀ k : ℤ, |((roundHalfEven num den : Nat) : ℚ) - (num : ℚ) / den| ≤ |(k : ℚ) - (num : ℚ) / den|) ∧
    (|((roundHalfEven num den : Nat) : ℚ) - (num : ℚ) / den| = 1 / 2 → Even (roundHalfEven num den))) ∧
  roundHalfEven 1 2 = 0 ∧ roundHalfEven 3 2 = 2 ∧ roundHalfEven 5 2 = 2

/-- The step count (41_rotation_commands.md R75): `ROUND(|a| x SPR / 360)` on the exact value of `a`, with the laws the
rule derives. -/
def Obligations.StepCountIsTheRoundedShareOfATurn : Prop :=
  ∀ (a : Angle) (spr : Spr), isFinite a = true →
    |((steps a spr : Nat) : ℚ) - |angleValue a| * spr.toNat / 360| ≤ 1 / 2 ∧
    (|((steps a spr : Nat) : ℚ) - |angleValue a| * spr.toNat / 360| = 1 / 2 → Even (steps a spr)) ∧
    (angleValue a = 0 → steps a spr = 0) ∧
    steps (negAngle a) spr = steps a spr ∧
    (∀ k : Nat, angleValue a = 360 * k → steps a spr = k * spr.toNat) ∧
    (steps a spr = 0 ↔ |angleValue a| * spr.toNat / 360 ≤ 1 / 2)

/-- The direction: clockwise exactly for a positive angle; both zeros are counter-clockwise with 0 steps; and an angle of
0 steps, of either sign, changes nothing but `STATUS` and pulses `done` (41_rotation_commands.md R76). -/
def Obligations.DirectionIsClockwiseExactlyForPositiveAngles : Prop :=
  ∀ a : Angle, isFinite a = true →
    (dirOf a = true ↔ 0 < angleValue a) ∧
    (angleValue a = 0 → dirOf a = false ∧ ∀ spr : Spr, steps a spr = 0) ∧
    (∀ s : State, s.seq = .idle → steps a s.cfgSpr = 0 →
      exec (.rotate a) s = .next { s with status := 0, done := true })

/-- `ROTATE a` is `STEP steps(a), dir(a)` (41_rotation_commands.md R74): it completes at once when the count is 0, starts
the loop when it fits `REM`, and is refused with `BadCommand` when it does not. -/
def Obligations.RotateIsItsStep : Prop :=
  ∀ (s : State) (a : Angle), s.seq = .idle → isFinite a = true →
    (steps a s.cfgSpr < 2 ^ 32 →
      exec (.rotate a) s = exec (.step (BitVec.ofNat 32 (steps a s.cfgSpr)) (dirOf a)) s) ∧
    (steps a s.cfgSpr = 0 → exec (.rotate a) s = .next { s with status := 0, done := true }) ∧
    (steps a s.cfgSpr ≠ 0 → steps a s.cfgSpr < 2 ^ 32 →
      exec (.rotate a) s = .next { s with
        dir := dirOf a, rem := BitVec.ofNat 32 (steps a s.cfgSpr), seq := .drive }) ∧
    (2 ^ 32 ≤ steps a s.cfgSpr → exec (.rotate a) s = .next { s with status := 4, fault := true, done := true })

/-- `ROTATE_RAD r` is `ROTATE RAD2DEG(r)` (41_rotation_commands.md R79): refused when that is not finite, and otherwise
completing, starting the loop or refused as it is. -/
def Obligations.RotateRadIsRotateOfItsDegrees : Prop :=
  ∀ (s : State) (r : Angle), s.seq = .idle → isFinite r = true →
    (isFinite (rad2deg r) = false →
      exec (.rotateRad r) s = .next { s with status := 4, fault := true, done := true }) ∧
    (isFinite (rad2deg r) = true →
      exec (.rotateRad r) s = exec (.rotate (rad2deg r)) s ∧
      (steps (rad2deg r) s.cfgSpr = 0 → exec (.rotateRad r) s = .next { s with status := 0, done := true }) ∧
      (steps (rad2deg r) s.cfgSpr ≠ 0 → steps (rad2deg r) s.cfgSpr < 2 ^ 32 →
        exec (.rotateRad r) s = .next { s with
          dir := dirOf (rad2deg r), rem := BitVec.ofNat 32 (steps (rad2deg r) s.cfgSpr), seq := .drive }))

/-- The named properties P1 to P4 of `RAD2DEG` (41_rotation_commands.md R80); P5 holds of every function. -/
def Obligations.RadToDegNamedProperties : Prop :=
  rad2deg 0x400921FB54442D18#64 = 0x4066800000000000#64 ∧
  rad2deg 0xBFF921FB54442D18#64 = 0xC056800000000000#64 ∧
  rad2deg 0x0000000000000000#64 = 0x0000000000000000#64 ∧
  rad2deg 0x8000000000000000#64 = 0x8000000000000000#64 ∧
  (∀ r : Angle, isFinite r = true → rad2deg (negAngle r) = negAngle (rad2deg r))

/-- The rounding of both operations of `RAD2DEG` is binary64 rounding to nearest, ties to even, of every non-negative
rational (41_rotation_commands.md R80, 93_implementation_defined.md G2). -/
def Obligations.BinaryRoundingIsToNearest : Prop :=
  ∀ num den : Nat, den ≠ 0 → IsRounding ((num : ℚ) / den) (nearestAngle false num den)

/-- `RAD2DEG` is the two binary64 operations in the order the spec gives them, each rounded to nearest, ties to even:
`t = fl(r x 180)`, then `fl(t / PI64)`, with the operand's sign; an infinite `t` is not divided
(41_rotation_commands.md R80). -/
def Obligations.RadToDegIsTimes180ThenOverPi : Prop :=
  ∀ r : Angle, isFinite r = true →
    ∃ t : Angle, IsRounding (angleValue r * 180) t ∧ signBit t = signBit r ∧ signBit (rad2deg r) = signBit r ∧
      (isFinite t = true → IsRounding (angleValue t / angleValue 0x400921FB54442D18#64) (rad2deg r)) ∧
      (isFinite t = false → isFinite (rad2deg r) = false)

/-- The five equivalences the source states, for the default `SPR`, each as the STEP it is (41_rotation_commands.md R81,
which the spec derives). -/
def Obligations.SourceRotationExamples : Prop :=
  ∀ s : State, s.seq = .idle → s.cfgSpr = 4096 →
    exec (.rotate 0x4076800000000000#64) s = exec (.step 4096 true) s ∧
    exec (.rotate 0xC066800000000000#64) s = exec (.step 2048 false) s ∧
    exec (.rotate 0x0000000000000000#64) s = exec (.step 0 false) s ∧
    exec (.rotate 0x0000000000000000#64) s = .next { s with status := 0, done := true } ∧
    exec (.rotateRad 0x400921FB54442D18#64) s = exec (.rotate 0x4066800000000000#64) s ∧
    exec (.rotate 0x4066800000000000#64) s = exec (.step 2048 true) s ∧
    exec (.rotateRad 0xBFF921FB54442D18#64) s = exec (.rotate 0xC056800000000000#64) s ∧
    exec (.rotate 0xC056800000000000#64) s = exec (.step 1024 false) s

/-! ## The command word -/

/-- Decoding the encoding of a well-formed instruction gives it back, at every operand (30_encoding.md R47 to R52). -/
def Obligations.DecodeOfEncode : Prop := ∀ i : Instr, i.wf = true → decode (encode i) = .instr i

/-- What a word decodes to is well formed, and the word is its encoding, or any word with STOP's opcode (30_encoding.md
R48 to R51). -/
def Obligations.EveryDecodedWordIsItsEncoding : Prop :=
  ∀ (w : CmdWord) (i : Instr), decode w = .instr i →
    i.wf = true ∧ (encode i = w ∨ (i = .stop ∧ w.extractLsb' 64 8 = 0x00#8))

/-- The words that are illegal as words (30_encoding.md R53): an unassigned opcode, a reserved bit of STEP, an exponent
field of 2047. The fourth case of R53, a step count of 2^32 or more, is `UnfitRotationIsRefused`. -/
def Obligations.IllegalWordsAreExactlyThese : Prop :=
  ∀ w : CmdWord,
    (∃ why, decode w = .illegal why) ↔
      (4 ≤ (w.extractLsb' 64 8).toNat ∨
        (w.extractLsb' 64 8 = 0x01#8 ∧ w.extractLsb' 33 31 ≠ 0) ∨
        ((w.extractLsb' 64 8 = 0x02#8 ∨ w.extractLsb' 64 8 = 0x03#8) ∧ w.extractLsb' 52 11 = 0x7FF#11))

/-- Words of 95_test_vectors.md decode to the commands they stand for (V13, V14, V15, V28, V55, V75, V77, V47). -/
def Obligations.WrittenWordsDecode : Prop :=
  decode 0x00FFFFFFFFFFFFFFFF#72 = .instr .stop ∧
  decode 0x010000000100000001#72 = .instr (.step 1 true) ∧
  decode 0x010000000000000001#72 = .instr (.step 1 false) ∧
  decode 0x024076800000000000#72 = .instr (.rotate 0x4076800000000000#64) ∧
  decode 0x03BFF921FB54442D18#72 = .instr (.rotateRad 0xBFF921FB54442D18#64) ∧
  decode 0x040000000000000000#72 = .illegal .opcode ∧
  decode 0x010000000200000001#72 = .illegal .reservedBits ∧
  decode 0x027FF8000000000000#72 = .illegal .notFinite

/-! ## The step -/

/-- A step in which a word is accepted that decodes to `i` is `exec i`, on the state with that command taken from the
port and the last pulse of `done` ended, followed by the next input levels; and a word, legal or not, is accepted exactly
when the block is out of reset, in IDLE, and presented with it (30_encoding.md R53, R57; 10_state.md R25;
60_exceptions.md R88). -/
def Obligations.StepRunsTheDecodedInstruction : Prop :=
  (∀ (s : State) (w : CmdWord) (rest : List CmdWord) (i : Instr),
    active s = true → s.seq = .idle → s.inputs.present = true → s.cmds = w :: rest → decode w = .instr i →
    fetch s = some w ∧ ∃ t, exec i { s with cmds := rest, done := false } = .next t ∧ step s = .next (nextInputs t)) ∧
  (∀ (s : State) (w : CmdWord),
    fetch s = some w ↔ active s = true ∧ s.seq = .idle ∧ s.inputs.present = true ∧ s.cmds.head? = some w)

/-- The machine never stops: every state has a next state, so neither a fault nor a refusal is ever raised
(70_reset_and_hazards.md R118: "no terminal state"). -/
def Obligations.EveryStateHasANextState : Prop := ∀ s : State, ∃ t, step s = .next t

/-- In IDLE with no command presented nothing changes (60_exceptions.md R89, 95_test_vectors.md V69). -/
def Obligations.IdleWithoutACommandKeepsEverything : Prop :=
  ∀ s : State, active s = true → s.seq = .idle → s.inputs.present = false ∨ s.cmds = [] →
    step s = .next (nextInputs { s with done := false })

/-- While a STEP runs, and in FAILED, no command is accepted and none is lost: the commands on the port do not change,
and what they are makes no difference to anything else (30_encoding.md R57, 93_implementation_defined.md U15, U16). -/
def Obligations.CommandsWaitUnlessIdle : Prop :=
  ∀ (s : State) (other : List CmdWord), s.seq ≠ .idle →
    ∃ t, step s = .next t ∧ t.cmds = s.cmds ∧ step { s with cmds := other } = .next { t with cmds := other }

/-- The arcs of the sequencer and no others (40_step_and_stop.md R73). -/
def Obligations.SequencerHasOnlyTheListedArcs : Prop :=
  ∀ s : State, active s = true → ∃ t, step s = .next t ∧
    t.seq =
      match s.seq with
      | .failed => .failed
      | .idle =>
        match fetch s with
        | none => .idle
        | some w =>
          match decode w with
          | .illegal _ => .idle
          | .instr i => if commandedCount s.cfgSpr i = 0 then .idle else .drive
      | .drive => if s.inputs.wrFail then .idle else if s.rem = 1 then .idle else .wait
      | .wait => if s.inputs.cancel then .idle else if s.tmr = 1 then .drive else .wait

/-- `PHASE` is written by a successful iteration and by nothing else after reset (10_state.md R14). -/
def Obligations.PhaseIsWrittenOnlyByIterations : Prop :=
  ∀ s t : State, active s = true → step s = .next t → t.phase ≠ s.phase →
    s.seq = .drive ∧ s.inputs.wrFail = false ∧ t.phase = s.phase + (if s.dir then 1 else -1)

/-- `OUT` is a latch: it is written by an iteration, by a STOP and by a cancellation, and keeps its value otherwise
(10_state.md R15, 70_reset_and_hazards.md R115). -/
def Obligations.OutputsAreWrittenOnlyByIterationsAndOff : Prop :=
  ∀ s t : State, active s = true → step s = .next t → t.out ≠ s.out →
    (s.seq = .drive ∧ (s.inputs.wrFail = false → t.out = tableRead s.ct s.phase)) ∨
    (s.seq = .wait ∧ s.inputs.cancel = true ∧ t.out = 0) ∨
    (s.seq = .idle ∧ (∃ w, fetch s = some w ∧ decode w = .instr .stop) ∧ t.out = 0)

/-- No step changes the table, and no step but a successful INIT changes the configuration (10_state.md R13, R19, R20;
60_exceptions.md R97). -/
def Obligations.TableAndConfigurationAreFixed : Prop :=
  ∀ s t : State, step s = .next t →
    t.ct = s.ct ∧
    (¬(s.inputs.rst = false ∧ s.rstHeld = true ∧ initOk s.inputs = true) →
      t.cfgInterval = s.cfgInterval ∧ t.cfgSpr = s.cfgSpr)

/-- The frame of the four commands: an instruction's acceptance leaves `PHASE`, `TMR`, the table, the configuration and
the ports alone; a STOP also `REM`, `DIR` and `FAULT`, and every other command `OUT`; and a command that does not start a
loop leaves `DIR` and `REM` alone (40_step_and_stop.md R58, R60, R65; 41_rotation_commands.md R74, R79). -/
def Obligations.AcceptanceFrame : Prop :=
  ∀ (i : Instr) (s : State), ∃ t, exec i s = .next t ∧
    t = { s with
      out := t.out, rem := t.rem, dir := t.dir, seq := t.seq, status := t.status, fault := t.fault, done := t.done } ∧
    (i = .stop → t.rem = s.rem ∧ t.dir = s.dir ∧ t.fault = s.fault) ∧
    (i ≠ .stop → t.out = s.out) ∧
    (t.seq ≠ .drive → t.rem = s.rem ∧ t.dir = s.dir) ∧
    (t.seq = .drive → t.status = s.status ∧ t.fault = s.fault ∧ t.done = s.done)

/-! ## Invariants -/

/-- The register invariants hold after reset, whatever `TICK` is. That `State.reset` has the default interval and the default
`SPR` is the model's choice of configuration inputs (assumption 6). -/
def Obligations.RegisterInvariantsAtReset : Prop := Inv State.reset

/-- Every step keeps the register invariants: I5 of 10_state.md R31 with what it rests on, whatever the environment
does. -/
def Obligations.RegisterInvariantsAreKept : Prop :=
  ∀ s t : State, Inv s → step s = .next t → Inv t

/-- The invariants about the past hold all along every run, with the history the run has made: from whatever state it
starts in, and so from `State.reset`, from the state any INIT leaves, and past any reset on its way (10_state.md R31, I2,
I3, I4, I6, with I3 for the direction of the last iteration, assumption 15). -/
def Obligations.HistoryInvariantsAlongRuns : Prop :=
  ∀ (k : Nat) (s t : State), runSteps k s = .next t → HistoryInv (historyAlong k History.start s) t

/-- The invariants about the past hold after reset, when nothing has happened, and every step keeps them: I2, I3, I4 and I6
of 10_state.md R31, I3 for the direction of the last iteration (assumption 15). -/
def Obligations.HistoryInvariantsAreKept : Prop :=
  HistoryInv History.start State.reset ∧
  (∀ (h : History) (s t : State), HistoryInv h s → step s = .next t → HistoryInv (h.after s t) t)

/-- I3 of 10_state.md R31 as it is worded, with the value `DIR` holds now, is not kept by every step: the acceptance of a
STEP writes `DIR` before its first iteration (40_step_and_stop.md R60). Expected to fail (assumption 15). -/
def Obligations.BehindPhaseByTheCurrentDirection : Prop :=
  ∀ (h : History) (s t : State) (cw cw' : Bool), HistoryInv h s → Inv s → step s = .next t →
    h.writer = .iteration cw → s.out = tableRead s.ct (s.phase - delta s.dir) →
    (h.after s t).writer = .iteration cw' → t.out = tableRead t.ct (t.phase - delta t.dir)

/-! ## Whole commands -/

/-- The big-step form of STEP, which the spec derives (40_step_and_stop.md R66): the trace, and the state at completion. -/
def Obligations.WholeStepClosedForm : Prop :=
  ∀ (s : State) (w : CmdWord) (n : Count) (cw : Bool),
    fetch s = some w → decode w = .instr (.step n cw) → s.cfgInterval ≠ 0 →
    holdsFor undisturbed (stepLength n.toNat s.cfgInterval.toNat) s = true →
    ∃ t, runSteps (stepLength n.toNat s.cfgInterval.toNat) s = .next t ∧
      trace (stepLength n.toNat s.cfgInterval.toNat) s =
        writesFrom s.ct s.phase cw n.toNat ++ [.completed 0] ∧
      t.phase = s.phase + delta cw * BitVec.ofNat 3 n.toNat ∧
      (1 ≤ n.toNat → t.out = entryFrom s.ct s.phase cw (n.toNat - 1) ∧ t.dir = cw) ∧
      (n.toNat = 0 → t.out = s.out ∧ t.dir = s.dir) ∧
      t.status = 0 ∧ t.fault = s.fault ∧ t.seq = .idle

/-- The state before the (k+1)-th write of a STEP: `k` phases on, none skipped, with the pattern of the phase before on
the outputs and `n - k` iterations to go (40_step_and_stop.md R67, R68; 20_memory.md R41 (b)). -/
def Obligations.NoPhaseIsSkipped : Prop :=
  ∀ (s : State) (w : CmdWord) (n : Count) (cw : Bool) (k : Nat),
    fetch s = some w → decode w = .instr (.step n cw) → s.cfgInterval ≠ 0 → k < n.toNat →
    holdsFor undisturbed (1 + k + k * s.cfgInterval.toNat) s = true →
    ∃ t, runSteps (1 + k + k * s.cfgInterval.toNat) s = .next t ∧ t.seq = .drive ∧
      t.phase = s.phase + delta cw * BitVec.ofNat 3 k ∧ t.rem.toNat = n.toNat - k ∧ t.dir = cw ∧
      (1 ≤ k → t.out = entryFrom s.ct s.phase cw (k - 1)) ∧ (k = 0 → t.out = s.out)

/-- The reversal: a STEP in one direction and a STEP in the other, from any phase, both counts at least 1, end with the
outputs one position further in the first direction than the source expects, and with equal counts return `PHASE` to
where it was (40_step_and_stop.md R69, R70; 70_reset_and_hazards.md R113). -/
def Obligations.ReversalEndsOnePositionBehind : Prop :=
  ∀ (s : State) (n m : Count) (cw : Bool) (rest : List CmdWord),
    s.seq = .idle → s.cmds = encode (.step n cw) :: encode (.step m (!cw)) :: rest → n ≠ 0 → m ≠ 0 →
    s.cfgInterval ≠ 0 →
    holdsFor (fun t => undisturbed t && t.inputs.present)
      (stepLength n.toNat s.cfgInterval.toNat + stepLength m.toNat s.cfgInterval.toNat) s = true →
    ∃ t, runSteps (stepLength n.toNat s.cfgInterval.toNat + stepLength m.toNat s.cfgInterval.toNat) s = .next t ∧
      t.seq = .idle ∧ t.status = 0 ∧ t.fault = s.fault ∧ t.cmds = rest ∧
      t.phase = s.phase + delta cw * BitVec.ofNat 3 n.toNat + delta (!cw) * BitVec.ofNat 3 m.toNat ∧
      t.out = tableRead s.ct (t.phase + delta cw) ∧
      (n = m → t.phase = s.phase ∧ t.out = tableRead s.ct (s.phase + delta cw))

/-- `k` single steps of one direction, issued back to back, move `PHASE` by `k` modulo 8 in that direction, with one write
each and no wait between them (40_step_and_stop.md R69, 70_reset_and_hazards.md R110). -/
def Obligations.SingleStepsAddUp : Prop :=
  ∀ (s : State) (k : Nat) (cw : Bool) (rest : List CmdWord),
    s.seq = .idle → s.cmds = List.replicate k (encode (.step 1 cw)) ++ rest →
    holdsFor (fun t => undisturbed t && t.inputs.present) (2 * k) s = true →
    ∃ t, runSteps (2 * k) s = .next t ∧ t.seq = .idle ∧ t.cmds = rest ∧ t.fault = s.fault ∧
      t.phase = s.phase + delta cw * BitVec.ofNat 3 k ∧ (1 ≤ k → t.status = 0 ∧ t.dir = cw) ∧
      trace (2 * k) s =
        (List.range k).flatMap fun j => [.write (entryFrom s.ct s.phase cw j), .completed 0]

/-- Every running STEP ends: whatever `cancel` and `wr_fail` do, and as long as no reset comes, the block is back in IDLE
within `REM` iterations and waits (70_reset_and_hazards.md R117). The fairness premise of R117 is not needed, since the
timer of 40_step_and_stop.md R63 counts: that one step is one tick of a wait is the model's choice (assumption 13). -/
def Obligations.EveryRunningStepEnds : Prop :=
  ∀ s : State, Inv s → s.seq = .drive ∨ s.seq = .wait → neverReset s = true →
    ∃ k t, k ≤ s.rem.toNat * (s.cfgInterval.toNat + 1) ∧ runSteps k s = .next t ∧ t.seq = .idle

/-! ## The output ports -/

/-- The output ports show their registers, in every state: `cmd_ready` is 1 exactly when `SEQ = IDLE`, and `out`, `done`,
`status`, `fault` and `phase` are `OUT`, the pulse, `STATUS`, `FAULT` and `PHASE` (10_state.md R25; 60_exceptions.md R96,
R101). Whether a command is accepted is `StepRunsTheDecodedInstruction`. -/
def Obligations.PortsShowTheirRegisters : Prop :=
  ∀ s : State,
    ((outputs s).cmdReady = true ↔ s.seq = .idle) ∧ (outputs s).out = s.out ∧ (outputs s).done = s.done ∧
      (outputs s).status = s.status ∧ (outputs s).fault = s.fault ∧ (outputs s).phase = s.phase

/-! ## The time base -/

/-- The number of ticks of an interval, whatever `TICK` is: `ceil(interval / TICK)`, at least 1 exactly for a positive
interval (00_scope.md R8, 10_state.md R25); and `State.reset` holds that number for the default interval, not wrapped. That
`TICK` is a rational number at which the default fits the port is the model's choice (assumption 6). -/
def Obligations.IntervalTicksIsTheCeiling : Prop :=
  0 < (Config.tickNum : ℚ) / Config.tickDen ∧
  (∀ (interval : ℤ) (n : Nat),
    Config.intervalTicks interval ≤ n ↔ (interval : ℚ) ≤ n * ((Config.tickNum : ℚ) / Config.tickDen)) ∧
  (∀ interval : ℤ, 1 ≤ Config.intervalTicks interval ↔ 0 < interval) ∧
  State.reset.cfgInterval.toNat = Config.intervalTicks Config.defaultIntervalNanos
end

