-- ==== Sys2Proof/Laws/Config.lean ====
section
/-! SUPPORT. What a number of ticks is, for whatever `TICK` is: positive, the ceiling of the interval over it, and within
the port for the default interval. -/

namespace Sys2Proof.Config

theorem defaultIntervalNanos_pos : 0 < defaultIntervalNanos.toNat := by decide

theorem maxTicks_pos : 0 < maxTicks := by decide

theorem tickNum_pos : 0 < tickNum := by
  have hd := defaultIntervalNanos_pos
  unfold tickNum
  generalize defaultIntervalNanos.toNat = d at *
  generalize maxTicks * tickExcess = e
  have := Nat.mul_pos hd (show 0 < max 1 tickExcessPart by omega)
  omega

theorem tickDen_pos : 0 < tickDen := Nat.mul_pos maxTicks_pos (by omega)

/-- `ceilTicks` is the ceiling: at most `n` exactly when `n` ticks reach the interval. -/
theorem ceilTicks_le_iff {num den : Nat} (hn : 0 < num) (i : Int) (n : Nat) :
    ceilTicks num den i ≤ n ↔ i.toNat * den ≤ n * num := by
  rw [ceilTicks, ← Nat.lt_succ_iff, Nat.div_lt_iff_lt_mul hn, Nat.succ_mul]
  omega

/-- A positive interval takes at least one tick, and any other none. -/
theorem ceilTicks_pos_iff {num den : Nat} (hn : 0 < num) (hd : 0 < den) (i : Int) : 1 ≤ ceilTicks num den i ↔ 0 < i := by
  have h := ceilTicks_le_iff (den := den) hn i 0
  rw [Nat.zero_mul, Nat.le_zero, Nat.le_zero, Nat.mul_eq_zero] at h
  omega

theorem intervalTicks_pos_iff (i : Int) : 1 ≤ intervalTicks i ↔ 0 < i := ceilTicks_pos_iff tickNum_pos tickDen_pos i

/-- The default interval fits the port. -/
theorem intervalTicks_default_le : intervalTicks defaultIntervalNanos ≤ maxTicks := by
  rw [intervalTicks, ceilTicks_le_iff tickNum_pos]
  unfold tickNum tickDen
  generalize defaultIntervalNanos.toNat = d
  generalize maxTicks = m
  generalize max 1 tickExcessPart = b
  rw [Nat.mul_left_comm, Nat.mul_add]
  exact Nat.le_add_right _ _

/-- The default interval on the port is not wrapped. -/
theorem intervalTicks_default_toNat :
    (BitVec.ofNat 32 (intervalTicks defaultIntervalNanos)).toNat = intervalTicks defaultIntervalNanos := by
  have h := intervalTicks_default_le
  rw [BitVec.toNat_ofNat, Nat.mod_eq_of_lt]
  exact Nat.lt_of_le_of_lt h (by decide)

/-- It is not the 0 that stands for an interval that is not positive. -/
theorem intervalTicks_default_ne_zero : BitVec.ofNat 32 (intervalTicks defaultIntervalNanos) ≠ 0 := by
  intro h
  have h0 := congrArg BitVec.toNat h
  rw [intervalTicks_default_toNat] at h0
  have h1 := (intervalTicks_pos_iff defaultIntervalNanos).mpr (by decide)
  rw [h0] at h1
  exact absurd h1 (by decide)

end Sys2Proof.Config
end

