-- ==== Sys2Proof/Laws/Decode.lean ====
section
/-! SUPPORT. The fields of a command word: what the decoder reads from a word laid out field by field, and that a word is
its fields. -/

namespace Sys2Proof

open Machine

/-- One bit of a word laid out as opcode and operand. -/
theorem word_getLsbD (op : BitVec 8) (arg : BitVec 64) (i : Nat) :
    (op ++ arg : CmdWord).getLsbD i = if i < 64 then arg.getLsbD i else op.getLsbD (i - 64) :=
  BitVec.getLsbD_append

@[simp] theorem opField_append (op : BitVec 8) (arg : BitVec 64) : opField (op ++ arg) = op := by
  apply BitVec.eq_of_getLsbD_eq
  intro i hi
  rw [opField, BitVec.getLsbD_extractLsb', word_getLsbD]
  simp [hi]

@[simp] theorem argField_append (op : BitVec 8) (arg : BitVec 64) : argField (op ++ arg) = arg := by
  apply BitVec.eq_of_getLsbD_eq
  intro i hi
  rw [argField, BitVec.getLsbD_extractLsb', word_getLsbD]
  simp [hi]

/-- A word is its two fields (30_encoding.md R47). -/
theorem word_eq_fields (w : CmdWord) : (opField w ++ argField w : CmdWord) = w := by
  apply BitVec.eq_of_getLsbD_eq
  intro i hi
  rw [word_getLsbD, opField, argField, BitVec.getLsbD_extractLsb', BitVec.getLsbD_extractLsb']
  by_cases h : i < 64
  · simp [h]
  · rw [if_neg h, show 64 + (i - 64) = i by omega, decide_eq_true (show i - 64 < 8 by omega), Bool.true_and]

/-- One bit of STEP's operand field (30_encoding.md R49). -/
theorem step_operand_getLsbD (count : Count) (cw : Bool) (i : Nat) :
    (Instr.step count cw).operand.getLsbD i =
      if i < 32 then count.getLsbD i else if i = 32 then cw else false := by
  have h : (Instr.step count cw).operand.getLsbD i =
      if i < 32 then count.getLsbD i else (0#31 ++ BitVec.ofBool cw : BitVec 32).getLsbD (i - 32) :=
    BitVec.getLsbD_append
  have h2 : (0#31 ++ BitVec.ofBool cw : BitVec 32).getLsbD (i - 32) =
      if i - 32 < 1 then (BitVec.ofBool cw).getLsbD (i - 32) else (0#31).getLsbD (i - 32 - 1) :=
    BitVec.getLsbD_append
  rw [h, h2]
  by_cases h1 : i < 32
  · simp [h1]
  · by_cases h3 : i = 32
    · subst h3; simp
    · simp [h1, h3, show ¬(i - 32 < 1) by omega]

/-- The fields of STEP's operand (30_encoding.md R49, R52). -/
theorem step_operand_fields (count : Count) (cw : Bool) :
    argReserved (Instr.step count cw).operand = 0 ∧ argCount (Instr.step count cw).operand = count ∧
      argCw (Instr.step count cw).operand = cw := by
  refine ⟨?_, ?_, by rw [argCw, step_operand_getLsbD]; simp⟩
  · apply BitVec.eq_of_getLsbD_eq
    intro i hi
    rw [argReserved, BitVec.getLsbD_extractLsb', step_operand_getLsbD, if_neg (by omega), if_neg (by omega)]
    simp
  · apply BitVec.eq_of_getLsbD_eq
    intro i hi
    rw [argCount, BitVec.getLsbD_extractLsb', step_operand_getLsbD]
    simp [hi]

/-- A STEP operand with no reserved bit set is its two fields. -/
theorem operand_of_fields {arg : BitVec 64} (h : argReserved arg = 0) :
    (Instr.step (argCount arg) (argCw arg)).operand = arg := by
  have hr : ∀ j, j < 31 → arg.getLsbD (33 + j) = false := by
    intro j hj
    have := congrArg (fun v => BitVec.getLsbD v j) h
    simpa [argReserved, hj] using this
  apply BitVec.eq_of_getLsbD_eq
  intro i hi
  rw [step_operand_getLsbD]
  by_cases h1 : i < 32
  · rw [if_pos h1, argCount, BitVec.getLsbD_extractLsb']; simp [h1]
  · rw [if_neg h1]
    by_cases h2 : i = 32
    · rw [if_pos h2, h2]; rfl
    · rw [if_neg h2, show i = 33 + (i - 33) by omega, hr _ (by omega)]

/-- Decoding the four opcodes. -/
theorem decode_stop {w : CmdWord} (h : opField w = 0x00#8) : decode w = .instr .stop := by
  simp [decode, h]

theorem decode_step {w : CmdWord} (h : opField w = 0x01#8) : decode w = decodeStep (argField w) := by
  simp [decode, h]

theorem decode_rotate {w : CmdWord} (h : opField w = 0x02#8) : decode w = decodeRotate (argField w) := by
  simp [decode, h]

theorem decode_rotateRad {w : CmdWord} (h : opField w = 0x03#8) : decode w = decodeRotateRad (argField w) := by
  simp [decode, h]

end Sys2Proof
end

