-- ==== Sys2Proof/Laws/State.lean ====
section
/-! SUPPORT. One lemma per field of State per named update of it, so that no proof unfolds a record update. -/

namespace Sys2Proof.Machine

/-! ### startTick -/

@[simp] theorem startTick_seq (s : State) : (startTick s).seq = s.seq := rfl
@[simp] theorem startTick_phase (s : State) : (startTick s).phase = s.phase := rfl
@[simp] theorem startTick_out (s : State) : (startTick s).out = s.out := rfl
@[simp] theorem startTick_rem (s : State) : (startTick s).rem = s.rem := rfl
@[simp] theorem startTick_dir (s : State) : (startTick s).dir = s.dir := rfl
@[simp] theorem startTick_tmr (s : State) : (startTick s).tmr = s.tmr := rfl
@[simp] theorem startTick_cfgInterval (s : State) : (startTick s).cfgInterval = s.cfgInterval := rfl
@[simp] theorem startTick_cfgSpr (s : State) : (startTick s).cfgSpr = s.cfgSpr := rfl
@[simp] theorem startTick_status (s : State) : (startTick s).status = s.status := rfl
@[simp] theorem startTick_fault (s : State) : (startTick s).fault = s.fault := rfl
@[simp] theorem startTick_done (s : State) : (startTick s).done = false := rfl
@[simp] theorem startTick_ct (s : State) : (startTick s).ct = s.ct := rfl
@[simp] theorem startTick_rstHeld (s : State) : (startTick s).rstHeld = s.rstHeld := rfl
@[simp] theorem startTick_inputs (s : State) : (startTick s).inputs = s.inputs := rfl
@[simp] theorem startTick_later (s : State) : (startTick s).later = s.later := rfl
@[simp] theorem startTick_cmds (s : State) : (startTick s).cmds = s.cmds := rfl
@[simp] theorem startTick_draws (s : State) : (startTick s).draws = s.draws := rfl

/-! ### takeCommand -/

@[simp] theorem takeCommand_seq (s : State) : (takeCommand s).seq = s.seq := rfl
@[simp] theorem takeCommand_phase (s : State) : (takeCommand s).phase = s.phase := rfl
@[simp] theorem takeCommand_out (s : State) : (takeCommand s).out = s.out := rfl
@[simp] theorem takeCommand_rem (s : State) : (takeCommand s).rem = s.rem := rfl
@[simp] theorem takeCommand_dir (s : State) : (takeCommand s).dir = s.dir := rfl
@[simp] theorem takeCommand_tmr (s : State) : (takeCommand s).tmr = s.tmr := rfl
@[simp] theorem takeCommand_cfgInterval (s : State) : (takeCommand s).cfgInterval = s.cfgInterval := rfl
@[simp] theorem takeCommand_cfgSpr (s : State) : (takeCommand s).cfgSpr = s.cfgSpr := rfl
@[simp] theorem takeCommand_status (s : State) : (takeCommand s).status = s.status := rfl
@[simp] theorem takeCommand_fault (s : State) : (takeCommand s).fault = s.fault := rfl
@[simp] theorem takeCommand_done (s : State) : (takeCommand s).done = s.done := rfl
@[simp] theorem takeCommand_ct (s : State) : (takeCommand s).ct = s.ct := rfl
@[simp] theorem takeCommand_rstHeld (s : State) : (takeCommand s).rstHeld = s.rstHeld := rfl
@[simp] theorem takeCommand_inputs (s : State) : (takeCommand s).inputs = s.inputs := rfl
@[simp] theorem takeCommand_later (s : State) : (takeCommand s).later = s.later := rfl
@[simp] theorem takeCommand_cmds (s : State) : (takeCommand s).cmds = s.cmds.tail := rfl
@[simp] theorem takeCommand_draws (s : State) : (takeCommand s).draws = s.draws := rfl

/-! ### outWrite -/

@[simp] theorem outWrite_seq (q : Pattern) (s : State) : (outWrite q s).seq = s.seq := rfl
@[simp] theorem outWrite_phase (q : Pattern) (s : State) : (outWrite q s).phase = s.phase := rfl
@[simp] theorem outWrite_out (q : Pattern) (s : State) : (outWrite q s).out = q := rfl
@[simp] theorem outWrite_rem (q : Pattern) (s : State) : (outWrite q s).rem = s.rem := rfl
@[simp] theorem outWrite_dir (q : Pattern) (s : State) : (outWrite q s).dir = s.dir := rfl
@[simp] theorem outWrite_tmr (q : Pattern) (s : State) : (outWrite q s).tmr = s.tmr := rfl
@[simp] theorem outWrite_cfgInterval (q : Pattern) (s : State) : (outWrite q s).cfgInterval = s.cfgInterval := rfl
@[simp] theorem outWrite_cfgSpr (q : Pattern) (s : State) : (outWrite q s).cfgSpr = s.cfgSpr := rfl
@[simp] theorem outWrite_status (q : Pattern) (s : State) : (outWrite q s).status = s.status := rfl
@[simp] theorem outWrite_fault (q : Pattern) (s : State) : (outWrite q s).fault = s.fault := rfl
@[simp] theorem outWrite_done (q : Pattern) (s : State) : (outWrite q s).done = s.done := rfl
@[simp] theorem outWrite_ct (q : Pattern) (s : State) : (outWrite q s).ct = s.ct := rfl
@[simp] theorem outWrite_rstHeld (q : Pattern) (s : State) : (outWrite q s).rstHeld = s.rstHeld := rfl
@[simp] theorem outWrite_inputs (q : Pattern) (s : State) : (outWrite q s).inputs = s.inputs := rfl
@[simp] theorem outWrite_later (q : Pattern) (s : State) : (outWrite q s).later = s.later := rfl
@[simp] theorem outWrite_cmds (q : Pattern) (s : State) : (outWrite q s).cmds = s.cmds := rfl
@[simp] theorem outWrite_draws (q : Pattern) (s : State) : (outWrite q s).draws = s.draws := rfl

/-! ### outOff -/

@[simp] theorem outOff_seq (s : State) : (outOff s).seq = s.seq := rfl
@[simp] theorem outOff_phase (s : State) : (outOff s).phase = s.phase := rfl
@[simp] theorem outOff_out (s : State) : (outOff s).out = 0 := rfl
@[simp] theorem outOff_rem (s : State) : (outOff s).rem = s.rem := rfl
@[simp] theorem outOff_dir (s : State) : (outOff s).dir = s.dir := rfl
@[simp] theorem outOff_tmr (s : State) : (outOff s).tmr = s.tmr := rfl
@[simp] theorem outOff_cfgInterval (s : State) : (outOff s).cfgInterval = s.cfgInterval := rfl
@[simp] theorem outOff_cfgSpr (s : State) : (outOff s).cfgSpr = s.cfgSpr := rfl
@[simp] theorem outOff_status (s : State) : (outOff s).status = s.status := rfl
@[simp] theorem outOff_fault (s : State) : (outOff s).fault = s.fault := rfl
@[simp] theorem outOff_done (s : State) : (outOff s).done = s.done := rfl
@[simp] theorem outOff_ct (s : State) : (outOff s).ct = s.ct := rfl
@[simp] theorem outOff_rstHeld (s : State) : (outOff s).rstHeld = s.rstHeld := rfl
@[simp] theorem outOff_inputs (s : State) : (outOff s).inputs = s.inputs := rfl
@[simp] theorem outOff_later (s : State) : (outOff s).later = s.later := rfl
@[simp] theorem outOff_cmds (s : State) : (outOff s).cmds = s.cmds := rfl
@[simp] theorem outOff_draws (s : State) : (outOff s).draws = s.draws := rfl

/-! ### advancePhase -/

@[simp] theorem advancePhase_seq (s : State) : (advancePhase s).seq = s.seq := rfl
@[simp] theorem advancePhase_phase (s : State) : (advancePhase s).phase = s.phase + delta s.dir := rfl
@[simp] theorem advancePhase_out (s : State) : (advancePhase s).out = s.out := rfl
@[simp] theorem advancePhase_rem (s : State) : (advancePhase s).rem = s.rem := rfl
@[simp] theorem advancePhase_dir (s : State) : (advancePhase s).dir = s.dir := rfl
@[simp] theorem advancePhase_tmr (s : State) : (advancePhase s).tmr = s.tmr := rfl
@[simp] theorem advancePhase_cfgInterval (s : State) : (advancePhase s).cfgInterval = s.cfgInterval := rfl
@[simp] theorem advancePhase_cfgSpr (s : State) : (advancePhase s).cfgSpr = s.cfgSpr := rfl
@[simp] theorem advancePhase_status (s : State) : (advancePhase s).status = s.status := rfl
@[simp] theorem advancePhase_fault (s : State) : (advancePhase s).fault = s.fault := rfl
@[simp] theorem advancePhase_done (s : State) : (advancePhase s).done = s.done := rfl
@[simp] theorem advancePhase_ct (s : State) : (advancePhase s).ct = s.ct := rfl
@[simp] theorem advancePhase_rstHeld (s : State) : (advancePhase s).rstHeld = s.rstHeld := rfl
@[simp] theorem advancePhase_inputs (s : State) : (advancePhase s).inputs = s.inputs := rfl
@[simp] theorem advancePhase_later (s : State) : (advancePhase s).later = s.later := rfl
@[simp] theorem advancePhase_cmds (s : State) : (advancePhase s).cmds = s.cmds := rfl
@[simp] theorem advancePhase_draws (s : State) : (advancePhase s).draws = s.draws := rfl

/-! ### complete -/

@[simp] theorem complete_seq (code : Code) (s : State) : (complete code s).seq = .idle := rfl
@[simp] theorem complete_phase (code : Code) (s : State) : (complete code s).phase = s.phase := rfl
@[simp] theorem complete_out (code : Code) (s : State) : (complete code s).out = s.out := rfl
@[simp] theorem complete_rem (code : Code) (s : State) : (complete code s).rem = s.rem := rfl
@[simp] theorem complete_dir (code : Code) (s : State) : (complete code s).dir = s.dir := rfl
@[simp] theorem complete_tmr (code : Code) (s : State) : (complete code s).tmr = s.tmr := rfl
@[simp] theorem complete_cfgInterval (code : Code) (s : State) : (complete code s).cfgInterval = s.cfgInterval := rfl
@[simp] theorem complete_cfgSpr (code : Code) (s : State) : (complete code s).cfgSpr = s.cfgSpr := rfl
@[simp] theorem complete_status (code : Code) (s : State) : (complete code s).status = code := rfl
@[simp] theorem complete_fault (code : Code) (s : State) : (complete code s).fault = stickyFault s.fault code := rfl
@[simp] theorem complete_done (code : Code) (s : State) : (complete code s).done = true := rfl
@[simp] theorem complete_ct (code : Code) (s : State) : (complete code s).ct = s.ct := rfl
@[simp] theorem complete_rstHeld (code : Code) (s : State) : (complete code s).rstHeld = s.rstHeld := rfl
@[simp] theorem complete_inputs (code : Code) (s : State) : (complete code s).inputs = s.inputs := rfl
@[simp] theorem complete_later (code : Code) (s : State) : (complete code s).later = s.later := rfl
@[simp] theorem complete_cmds (code : Code) (s : State) : (complete code s).cmds = s.cmds := rfl
@[simp] theorem complete_draws (code : Code) (s : State) : (complete code s).draws = s.draws := rfl

/-! ### dropCounters -/

@[simp] theorem dropCounters_seq (s : State) : (dropCounters s).seq = s.seq := rfl
@[simp] theorem dropCounters_phase (s : State) : (dropCounters s).phase = s.phase := rfl
@[simp] theorem dropCounters_out (s : State) : (dropCounters s).out = s.out := rfl
@[simp] theorem dropCounters_rem (s : State) : (dropCounters s).rem = Config.freeRem s.draws := rfl
@[simp] theorem dropCounters_dir (s : State) : (dropCounters s).dir = s.dir := rfl
@[simp] theorem dropCounters_tmr (s : State) : (dropCounters s).tmr = Config.freeTmr s.draws := rfl
@[simp] theorem dropCounters_cfgInterval (s : State) : (dropCounters s).cfgInterval = s.cfgInterval := rfl
@[simp] theorem dropCounters_cfgSpr (s : State) : (dropCounters s).cfgSpr = s.cfgSpr := rfl
@[simp] theorem dropCounters_status (s : State) : (dropCounters s).status = s.status := rfl
@[simp] theorem dropCounters_fault (s : State) : (dropCounters s).fault = s.fault := rfl
@[simp] theorem dropCounters_done (s : State) : (dropCounters s).done = s.done := rfl
@[simp] theorem dropCounters_ct (s : State) : (dropCounters s).ct = s.ct := rfl
@[simp] theorem dropCounters_rstHeld (s : State) : (dropCounters s).rstHeld = s.rstHeld := rfl
@[simp] theorem dropCounters_inputs (s : State) : (dropCounters s).inputs = s.inputs := rfl
@[simp] theorem dropCounters_later (s : State) : (dropCounters s).later = s.later := rfl
@[simp] theorem dropCounters_cmds (s : State) : (dropCounters s).cmds = s.cmds := rfl
@[simp] theorem dropCounters_draws (s : State) : (dropCounters s).draws = s.draws + 1 := rfl

/-! ### failedWrite -/

@[simp] theorem failedWrite_seq (s : State) : (failedWrite s).seq = s.seq := rfl
@[simp] theorem failedWrite_phase (s : State) : (failedWrite s).phase = s.phase := rfl
@[simp] theorem failedWrite_out (s : State) : (failedWrite s).out = mixPattern (Config.freeKeep s.draws) s.out (tableRead s.ct s.phase) := rfl
@[simp] theorem failedWrite_rem (s : State) : (failedWrite s).rem = s.rem := rfl
@[simp] theorem failedWrite_dir (s : State) : (failedWrite s).dir = s.dir := rfl
@[simp] theorem failedWrite_tmr (s : State) : (failedWrite s).tmr = s.tmr := rfl
@[simp] theorem failedWrite_cfgInterval (s : State) : (failedWrite s).cfgInterval = s.cfgInterval := rfl
@[simp] theorem failedWrite_cfgSpr (s : State) : (failedWrite s).cfgSpr = s.cfgSpr := rfl
@[simp] theorem failedWrite_status (s : State) : (failedWrite s).status = s.status := rfl
@[simp] theorem failedWrite_fault (s : State) : (failedWrite s).fault = s.fault := rfl
@[simp] theorem failedWrite_done (s : State) : (failedWrite s).done = s.done := rfl
@[simp] theorem failedWrite_ct (s : State) : (failedWrite s).ct = s.ct := rfl
@[simp] theorem failedWrite_rstHeld (s : State) : (failedWrite s).rstHeld = s.rstHeld := rfl
@[simp] theorem failedWrite_inputs (s : State) : (failedWrite s).inputs = s.inputs := rfl
@[simp] theorem failedWrite_later (s : State) : (failedWrite s).later = s.later := rfl
@[simp] theorem failedWrite_cmds (s : State) : (failedWrite s).cmds = s.cmds := rfl
@[simp] theorem failedWrite_draws (s : State) : (failedWrite s).draws = s.draws := rfl

/-! ### dropDataPath -/

@[simp] theorem dropDataPath_seq (s : State) : (dropDataPath s).seq = s.seq := rfl
@[simp] theorem dropDataPath_phase (s : State) : (dropDataPath s).phase = s.phase := rfl
@[simp] theorem dropDataPath_out (s : State) : (dropDataPath s).out = Config.freeOut s.draws := rfl
@[simp] theorem dropDataPath_rem (s : State) : (dropDataPath s).rem = Config.freeRem s.draws := rfl
@[simp] theorem dropDataPath_dir (s : State) : (dropDataPath s).dir = Config.freeDir s.draws := rfl
@[simp] theorem dropDataPath_tmr (s : State) : (dropDataPath s).tmr = Config.freeTmr s.draws := rfl
@[simp] theorem dropDataPath_cfgInterval (s : State) : (dropDataPath s).cfgInterval = s.cfgInterval := rfl
@[simp] theorem dropDataPath_cfgSpr (s : State) : (dropDataPath s).cfgSpr = s.cfgSpr := rfl
@[simp] theorem dropDataPath_status (s : State) : (dropDataPath s).status = s.status := rfl
@[simp] theorem dropDataPath_fault (s : State) : (dropDataPath s).fault = s.fault := rfl
@[simp] theorem dropDataPath_done (s : State) : (dropDataPath s).done = s.done := rfl
@[simp] theorem dropDataPath_ct (s : State) : (dropDataPath s).ct = s.ct := rfl
@[simp] theorem dropDataPath_rstHeld (s : State) : (dropDataPath s).rstHeld = s.rstHeld := rfl
@[simp] theorem dropDataPath_inputs (s : State) : (dropDataPath s).inputs = s.inputs := rfl
@[simp] theorem dropDataPath_later (s : State) : (dropDataPath s).later = s.later := rfl
@[simp] theorem dropDataPath_cmds (s : State) : (dropDataPath s).cmds = s.cmds := rfl
@[simp] theorem dropDataPath_draws (s : State) : (dropDataPath s).draws = s.draws + 1 := rfl

/-! ### holdReset -/

@[simp] theorem holdReset_seq (s : State) : (holdReset s).seq = s.seq := rfl
@[simp] theorem holdReset_phase (s : State) : (holdReset s).phase = s.phase := rfl
@[simp] theorem holdReset_out (s : State) : (holdReset s).out = s.out := rfl
@[simp] theorem holdReset_rem (s : State) : (holdReset s).rem = s.rem := rfl
@[simp] theorem holdReset_dir (s : State) : (holdReset s).dir = s.dir := rfl
@[simp] theorem holdReset_tmr (s : State) : (holdReset s).tmr = s.tmr := rfl
@[simp] theorem holdReset_cfgInterval (s : State) : (holdReset s).cfgInterval = s.cfgInterval := rfl
@[simp] theorem holdReset_cfgSpr (s : State) : (holdReset s).cfgSpr = s.cfgSpr := rfl
@[simp] theorem holdReset_status (s : State) : (holdReset s).status = s.status := rfl
@[simp] theorem holdReset_fault (s : State) : (holdReset s).fault = s.fault := rfl
@[simp] theorem holdReset_done (s : State) : (holdReset s).done = s.done := rfl
@[simp] theorem holdReset_ct (s : State) : (holdReset s).ct = s.ct := rfl
@[simp] theorem holdReset_rstHeld (s : State) : (holdReset s).rstHeld = true := rfl
@[simp] theorem holdReset_inputs (s : State) : (holdReset s).inputs = s.inputs := rfl
@[simp] theorem holdReset_later (s : State) : (holdReset s).later = s.later := rfl
@[simp] theorem holdReset_cmds (s : State) : (holdReset s).cmds = s.cmds := rfl
@[simp] theorem holdReset_draws (s : State) : (holdReset s).draws = s.draws := rfl

/-! ### releaseReset -/

@[simp] theorem releaseReset_seq (s : State) : (releaseReset s).seq = s.seq := rfl
@[simp] theorem releaseReset_phase (s : State) : (releaseReset s).phase = s.phase := rfl
@[simp] theorem releaseReset_out (s : State) : (releaseReset s).out = s.out := rfl
@[simp] theorem releaseReset_rem (s : State) : (releaseReset s).rem = s.rem := rfl
@[simp] theorem releaseReset_dir (s : State) : (releaseReset s).dir = s.dir := rfl
@[simp] theorem releaseReset_tmr (s : State) : (releaseReset s).tmr = s.tmr := rfl
@[simp] theorem releaseReset_cfgInterval (s : State) : (releaseReset s).cfgInterval = s.cfgInterval := rfl
@[simp] theorem releaseReset_cfgSpr (s : State) : (releaseReset s).cfgSpr = s.cfgSpr := rfl
@[simp] theorem releaseReset_status (s : State) : (releaseReset s).status = s.status := rfl
@[simp] theorem releaseReset_fault (s : State) : (releaseReset s).fault = s.fault := rfl
@[simp] theorem releaseReset_done (s : State) : (releaseReset s).done = s.done := rfl
@[simp] theorem releaseReset_ct (s : State) : (releaseReset s).ct = s.ct := rfl
@[simp] theorem releaseReset_rstHeld (s : State) : (releaseReset s).rstHeld = false := rfl
@[simp] theorem releaseReset_inputs (s : State) : (releaseReset s).inputs = s.inputs := rfl
@[simp] theorem releaseReset_later (s : State) : (releaseReset s).later = s.later := rfl
@[simp] theorem releaseReset_cmds (s : State) : (releaseReset s).cmds = s.cmds := rfl
@[simp] theorem releaseReset_draws (s : State) : (releaseReset s).draws = s.draws := rfl

/-! ### nextInputs: it writes the input levels and the list of later ones -/

@[simp] theorem nextInputs_seq (s : State) : (nextInputs s).seq = s.seq := by unfold nextInputs; split <;> rfl
@[simp] theorem nextInputs_phase (s : State) : (nextInputs s).phase = s.phase := by unfold nextInputs; split <;> rfl
@[simp] theorem nextInputs_out (s : State) : (nextInputs s).out = s.out := by unfold nextInputs; split <;> rfl
@[simp] theorem nextInputs_rem (s : State) : (nextInputs s).rem = s.rem := by unfold nextInputs; split <;> rfl
@[simp] theorem nextInputs_dir (s : State) : (nextInputs s).dir = s.dir := by unfold nextInputs; split <;> rfl
@[simp] theorem nextInputs_tmr (s : State) : (nextInputs s).tmr = s.tmr := by unfold nextInputs; split <;> rfl
@[simp] theorem nextInputs_cfgInterval (s : State) : (nextInputs s).cfgInterval = s.cfgInterval := by unfold nextInputs; split <;> rfl
@[simp] theorem nextInputs_cfgSpr (s : State) : (nextInputs s).cfgSpr = s.cfgSpr := by unfold nextInputs; split <;> rfl
@[simp] theorem nextInputs_status (s : State) : (nextInputs s).status = s.status := by unfold nextInputs; split <;> rfl
@[simp] theorem nextInputs_fault (s : State) : (nextInputs s).fault = s.fault := by unfold nextInputs; split <;> rfl
@[simp] theorem nextInputs_done (s : State) : (nextInputs s).done = s.done := by unfold nextInputs; split <;> rfl
@[simp] theorem nextInputs_ct (s : State) : (nextInputs s).ct = s.ct := by unfold nextInputs; split <;> rfl
@[simp] theorem nextInputs_rstHeld (s : State) : (nextInputs s).rstHeld = s.rstHeld := by unfold nextInputs; split <;> rfl
@[simp] theorem nextInputs_cmds (s : State) : (nextInputs s).cmds = s.cmds := by unfold nextInputs; split <;> rfl
@[simp] theorem nextInputs_draws (s : State) : (nextInputs s).draws = s.draws := by unfold nextInputs; split <;> rfl

theorem nextInputs_nil {s : State} (h : s.later = []) : nextInputs s = s := by
  obtain ⟨⟩ := s; subst h; rfl

theorem nextInputs_cons {s : State} {p : Inputs} {ps : List Inputs} (h : s.later = p :: ps) :
    nextInputs s = { s with inputs := p, later := ps } := by
  obtain ⟨⟩ := s; subst h; rfl

/-- Levels of the next step that are on the port now or listed for later. -/
theorem nextInputs_inputs_mem (s : State) : (nextInputs s).inputs ∈ s.inputs :: s.later := by
  unfold nextInputs; split
  · exact List.mem_cons_self
  · next p ps h => simp [h]

theorem nextInputs_later_subset (s : State) : (nextInputs s).later ⊆ s.later := by
  unfold nextInputs; split
  · exact fun _ h => h
  · next p ps h => rw [h]; exact List.subset_cons_self p ps

end Sys2Proof.Machine
end

