-- ==== Sys2Proof/Laws/Ops.lean ====
section
/-! SUPPORT. What each shared operation can do, said once: the table and the phase, errors, INIT, acceptance, the
iteration and the tick of the wait. -/

namespace Sys2Proof.Machine

/-! ## Phase, outputs, flags -/

theorem delta_true : delta true = 1 := rfl

theorem delta_false : delta false = -1 := rfl

theorem delta_eq (cw : Bool) : delta cw = if cw then 1 else -1 := by cases cw <;> rfl

/-- Each bit of a mixture is the old bit or the new one (60_exceptions.md R87). -/
theorem mixPattern_bit (keep old new : Pattern) (i : Nat) (hi : i < 4) :
    (mixPattern keep old new).getLsbD i = old.getLsbD i ∨
      (mixPattern keep old new).getLsbD i = new.getLsbD i := by
  cases hk : keep[i]
  · exact .inr (by simp [mixPattern, hi, hk])
  · exact .inl (by simp [mixPattern, hi, hk])

@[simp] theorem stickyFault_zero (f : Bool) : stickyFault f 0#3 = f := by simp [stickyFault]

theorem stickyFault_ok (f : Bool) : stickyFault f 0 = f := stickyFault_zero f

@[simp] theorem stickyFault_code (f : Bool) (e : ErrorCause) : stickyFault f e.code = true := by
  cases e <;> simp [stickyFault, ErrorCause.code]

@[simp] theorem complete_ok_fault (s : State) : (complete okCode s).fault = s.fault := stickyFault_zero s.fault

@[simp] theorem countDone_iff (r : Count) : countDone r = true ↔ r = 0 := by simp [countDone]

@[simp] theorem timerExpires_iff (t : Ticks) : timerExpires t = true ↔ t = 1 := by simp [timerExpires]

/-! ## Errors (60_exceptions.md R85 to R88) -/

/-- What every error leaves alone (60_exceptions.md R97). -/
theorem raise_frame (e : ErrorCause) (s : State) :
    (raise e s).ct = s.ct ∧ (raise e s).cfgInterval = s.cfgInterval ∧ (raise e s).cfgSpr = s.cfgSpr ∧
      (raise e s).phase = s.phase ∧ (raise e s).rstHeld = s.rstHeld ∧ (raise e s).inputs = s.inputs ∧
      (raise e s).later = s.later ∧ (raise e s).cmds = s.cmds := by
  cases e <;> simp [raise]

/-- What every error reports. -/
theorem raise_report (e : ErrorCause) (s : State) :
    (raise e s).status = e.code ∧ (raise e s).fault = true ∧ (raise e s).done = true := by
  cases e <;> simp [raise]

theorem raise_badCommand (s : State) :
    raise .badCommand s = { s with status := 4, seq := .idle, fault := true, done := true } := by
  have := (raise_report .badCommand s).2.1
  simp only [raise, complete, ErrorCause.code] at this ⊢
  rw [this]

/-- The errors that end a running STEP end in IDLE, and leave the direction alone with what every error leaves. -/
theorem raise_running {e : ErrorCause} (he : e = .interruptedOperation ∨ e = .pinWriteFailure) (s : State) :
    (raise e s).seq = .idle ∧ (raise e s).phase = s.phase ∧ (raise e s).dir = s.dir ∧
      (raise e s).cfgInterval = s.cfgInterval ∧ (raise e s).cfgSpr = s.cfgSpr := by
  rcases he with rfl | rfl <;> simp [raise]

@[simp] theorem raise_interrupted_out (s : State) : (raise .interruptedOperation s).out = 0 := rfl

@[simp] theorem raise_pinWriteFailure_out (s : State) :
    (raise .pinWriteFailure s).out = mixPattern (Config.freeKeep s.draws) s.out (tableRead s.ct s.phase) := rfl

@[simp] theorem raise_configError_seq (s : State) : (raise .configError s).seq = .failed := rfl

/-! ## INIT (70_reset_and_hazards.md R105 to R108) -/

theorem initOk_iff (p : Inputs) :
    initOk p = true ↔ p.cfgNOutputs = 4 ∧ p.cfgIntervalTicks ≠ 0 ∧ p.cfgSpr ≠ 0 := by
  simp [initOk, and_assoc]

theorem initOk_eq_false_iff (p : Inputs) :
    initOk p = false ↔ p.cfgNOutputs ≠ 4 ∨ p.cfgIntervalTicks = 0 ∨ p.cfgSpr = 0 := by
  rw [← Bool.not_eq_true, initOk_iff]; tauto

/-- What INIT leaves alone. -/
theorem init_frame (p : Inputs) (s : State) :
    (init p s).ct = s.ct ∧ (init p s).rstHeld = s.rstHeld ∧ (init p s).inputs = s.inputs ∧
      (init p s).later = s.later ∧ (init p s).cmds = s.cmds := by
  unfold init; split
  · simp
  · obtain ⟨hct, -, -, -, h⟩ := raise_frame .configError s
    exact ⟨hct, h⟩

/-- A successful INIT. -/
theorem init_success {p : Inputs} (h : initOk p = true) (s : State) :
    (init p s).seq = .idle ∧ (init p s).phase = 0 ∧ (init p s).status = 0 ∧ (init p s).fault = false ∧
      (init p s).cfgInterval = p.cfgIntervalTicks ∧ (init p s).cfgSpr = p.cfgSpr ∧ (init p s).done = s.done := by
  simp [init, h, okCode]

/-- A failed INIT. -/
theorem init_failure {p : Inputs} (h : initOk p = false) (s : State) :
    (init p s).seq = .failed ∧ (init p s).status = 1 ∧ (init p s).fault = true ∧ (init p s).done = true := by
  have hr := raise_report .configError s
  simp only [init, h, Bool.false_eq_true, if_false]
  exact ⟨rfl, hr⟩

/-- A failed INIT keeps the configuration and the phase (60_exceptions.md R97). -/
theorem init_failure_frame {p : Inputs} (h : initOk p = false) (s : State) :
    (init p s).cfgInterval = s.cfgInterval ∧ (init p s).cfgSpr = s.cfgSpr ∧ (init p s).phase = s.phase := by
  obtain ⟨-, hi, hs, hp, -⟩ := raise_frame .configError s
  simp only [init, h, Bool.false_eq_true, if_false]
  exact ⟨hi, hs, hp⟩

/-! ## Acceptance (40_step_and_stop.md R58, R60, R65; 41_rotation_commands.md R74, R78, R79) -/

theorem acceptStep_zero (cw : Bool) (s : State) : acceptStep 0 cw s = complete okCode s := rfl

theorem acceptStep_pos {count : Count} (h : count ≠ 0) (cw : Bool) (s : State) :
    acceptStep count cw s = { s with dir := cw, rem := count, seq := .drive } := by
  unfold acceptStep
  rw [if_neg (by rwa [countDone_iff])]

theorem fitsCount_iff (n : Nat) : fitsCount n = true ↔ n < 2 ^ 32 := by simp [fitsCount]

theorem rotateBy_fits {a : Angle} {s : State} (ha : isFinite a = true) (hn : steps a s.cfgSpr < 2 ^ 32) :
    rotateBy a s = acceptStep (BitVec.ofNat 32 (steps a s.cfgSpr)) (dirOf a) s := by
  simp [rotateBy, ha, (fitsCount_iff _).mpr hn]

theorem rotateBy_unfit {a : Angle} {s : State} (h : isFinite a = false ∨ 2 ^ 32 ≤ steps a s.cfgSpr) :
    rotateBy a s = raise .badCommand s := by
  have : ¬(isFinite a = true ∧ fitsCount (steps a s.cfgSpr) = true) := by
    rw [fitsCount_iff]; rintro ⟨ha, hn⟩
    rcases h with h | h
    · rw [h] at ha; cases ha
    · omega
  simp only [rotateBy, Bool.and_eq_true, this, if_false]

theorem ofNat_count_ne_zero {n : Nat} (h0 : n ≠ 0) (h : n < 2 ^ 32) : BitVec.ofNat 32 n ≠ 0 := by
  intro hz
  have := congrArg BitVec.toNat hz
  rw [BitVec.toNat_ofNat, Nat.mod_eq_of_lt h] at this
  exact h0 this

/-- The state an accepted instruction leaves. -/
def effect (i : Instr) (s : State) : State :=
  match i with
  | .stop => complete okCode (outOff s)
  | .step count cw => acceptStep count cw s
  | .rotate a => rotateBy a s
  | .rotateRad r => if isFinite r then rotateBy (rad2deg r) s else raise .badCommand s

/-- Every instruction has a next state. -/
theorem exec_eq (i : Instr) (s : State) : exec i s = .next (effect i s) := by cases i <;> rfl

end Sys2Proof.Machine
end

