-- ==== Sys2Proof/Laws/PerInstr.lean ====
section
/-! SUPPORT. Statements about each instruction as syntax: its encoding is in its row of spec/opcode_table.json. -/

namespace Sys2Proof

/-- The fixed bits of each row of spec/opcode_table.json (30_encoding.md R48 to R51): its mask and its match. -/
def tableRow : Instr → CmdWord × CmdWord
  | .stop => (0xFF0000000000000000#72, 0x000000000000000000#72)
  | .step _ _ => (0xFFFFFFFFFE00000000#72, 0x010000000000000000#72)
  | .rotate _ => (0xFF0000000000000000#72, 0x020000000000000000#72)
  | .rotateRad _ => (0xFF0000000000000000#72, 0x030000000000000000#72)

/-- The encoding of the instruction has the fixed bits of its row. -/
def Laws.EncodesRow.Statement (i : Instr) : Prop := encode i &&& (tableRow i).1 = (tableRow i).2

/-- A word laid out as opcode and operand, masked by a mask laid out in the same way. -/
theorem word_and (op op' : BitVec 8) (arg arg' : BitVec 64) :
    (op ++ arg : CmdWord) &&& (op' ++ arg' : CmdWord) = (op &&& op') ++ (arg &&& arg') := by
  apply BitVec.eq_of_getLsbD_eq
  intro i hi
  rw [BitVec.getLsbD_and, word_getLsbD, word_getLsbD, word_getLsbD]
  split <;> simp

theorem opcode_only_row (op : BitVec 8) (arg : BitVec 64) :
    (op ++ arg : CmdWord) &&& 0xFF0000000000000000#72 = op ++ 0#64 := by
  rw [show 0xFF0000000000000000#72 = 0xFF#8 ++ 0#64 from rfl, word_and, BitVec.and_zero]
  congr 1
  exact BitVec.and_allOnes

theorem Laws.EncodesRow.stop : Laws.EncodesRow.Statement .stop := rfl

theorem Laws.EncodesRow.step (count : Count) (cw : Bool) : Laws.EncodesRow.Statement (.step count cw) := by
  have h : (Instr.step count cw).operand &&& 0xFFFFFFFE00000000#64 = 0#64 := by
    apply BitVec.eq_of_getLsbD_eq
    intro i hi
    rw [BitVec.getLsbD_and, step_operand_getLsbD]
    have low : ∀ i, i < 33 → (0xFFFFFFFE00000000#64).getLsbD i = false := by decide
    by_cases h : i < 33
    · rw [low i h]; simp
    · rw [if_neg (by omega), if_neg (by omega)]; simp
  show (0x01#8 ++ (Instr.step count cw).operand : CmdWord) &&& (0xFF#8 ++ 0xFFFFFFFE00000000#64) = _
  rw [word_and, h]
  rfl

theorem Laws.EncodesRow.rotate (a : Angle) : Laws.EncodesRow.Statement (.rotate a) := opcode_only_row 0x02#8 a

theorem Laws.EncodesRow.rotateRad (r : Angle) : Laws.EncodesRow.Statement (.rotateRad r) := opcode_only_row 0x03#8 r

end Sys2Proof
end

