-- ==== Sys2Proof/Laws/Rounding.lean ====
section
/-! SUPPORT. The arithmetic of the rotation commands against exact rational numbers: `roundHalfEven`, the value of an
operand, the step count, and the fields and the grid of binary64 numbers that `roundMagnitude` rounds to. -/

namespace Sys2Proof.Machine

/-! ## `roundHalfEven` -/

theorem roundHalfEven_cases (num den : Nat) :
    (2 * (num % den) < den ∧ roundHalfEven num den = num / den) ∨
    (den < 2 * (num % den) ∧ roundHalfEven num den = num / den + 1) ∨
    (2 * (num % den) = den ∧ roundHalfEven num den = num / den + (num / den) % 2) := by
  unfold roundHalfEven
  split
  · exact .inl ⟨‹_›, rfl⟩
  · split
    · exact .inr (.inl ⟨‹_›, rfl⟩)
    · exact .inr (.inr ⟨by omega, rfl⟩)

theorem rat_div_mod (num den : Nat) (hd : den ≠ 0) :
    (num : ℚ) / den = (num / den : Nat) + ((num % den : Nat) : ℚ) / den := by
  have h : (den : ℚ) ≠ 0 := by exact_mod_cast hd
  have := Nat.div_add_mod num den
  field_simp
  exact_mod_cast this.symm

/-- The rounded number is within one half. -/
theorem roundHalfEven_near (num den : Nat) (hd : den ≠ 0) :
    |((roundHalfEven num den : Nat) : ℚ) - (num : ℚ) / den| ≤ 1 / 2 := by
  have h : (0 : ℚ) < den := by exact_mod_cast Nat.pos_of_ne_zero hd
  have hm : num % den < den := Nat.mod_lt _ (Nat.pos_of_ne_zero hd)
  rw [rat_div_mod num den hd, abs_le]
  rcases roundHalfEven_cases num den with ⟨hc, he⟩ | ⟨hc, he⟩ | ⟨hc, he⟩
  · have hc' : 2 * ((num % den : Nat) : ℚ) < den := by exact_mod_cast hc
    rw [he]
    have h1 : ((num % den : Nat) : ℚ) / den ≤ 1 / 2 := by rw [div_le_div_iff₀ h two_pos]; linarith
    have h2 : 0 ≤ ((num % den : Nat) : ℚ) / den := by positivity
    constructor <;> linarith
  · have hc' : (den : ℚ) < 2 * ((num % den : Nat) : ℚ) := by exact_mod_cast hc
    have hm' : ((num % den : Nat) : ℚ) < den := by exact_mod_cast hm
    rw [he]
    have h1 : 1 / 2 ≤ ((num % den : Nat) : ℚ) / den := by rw [div_le_div_iff₀ two_pos h]; linarith
    have h2 : ((num % den : Nat) : ℚ) / den ≤ 1 := by rw [div_le_one h]; linarith
    push_cast
    constructor <;> linarith
  · have hc' : 2 * ((num % den : Nat) : ℚ) = den := by exact_mod_cast hc
    rw [he]
    have h1 : ((num % den : Nat) : ℚ) / den = 1 / 2 := by rw [div_eq_div_iff h.ne' two_ne_zero]; linarith
    have h2 : (num / den) % 2 < 2 := Nat.mod_lt _ two_pos
    have h3 : (num / den) % 2 = 0 ∨ (num / den) % 2 = 1 := by omega
    rw [h1]
    rcases h3 with h3 | h3 <;> rw [h3] <;> push_cast <;> constructor <;> linarith

/-- At one half it is even. -/
theorem roundHalfEven_tie (num den : Nat) (hd : den ≠ 0)
    (ht : |((roundHalfEven num den : Nat) : ℚ) - (num : ℚ) / den| = 1 / 2) : Even (roundHalfEven num den) := by
  have h : (0 : ℚ) < den := by exact_mod_cast Nat.pos_of_ne_zero hd
  have hm : num % den < den := Nat.mod_lt _ (Nat.pos_of_ne_zero hd)
  rw [rat_div_mod num den hd] at ht
  rcases roundHalfEven_cases num den with ⟨hc, he⟩ | ⟨hc, he⟩ | ⟨hc, he⟩
  · exfalso
    have hc' : 2 * ((num % den : Nat) : ℚ) < den := by exact_mod_cast hc
    rw [he] at ht
    have h1 : ((num % den : Nat) : ℚ) / den < 1 / 2 := by rw [div_lt_div_iff₀ h two_pos]; linarith
    have h2 : 0 ≤ ((num % den : Nat) : ℚ) / den := by positivity
    have : |((num / den : Nat) : ℚ) - ((num / den : Nat) + ((num % den : Nat) : ℚ) / den)| =
        ((num % den : Nat) : ℚ) / den := by
      rw [sub_add_cancel_left, abs_neg, abs_of_nonneg h2]
    rw [this] at ht; linarith
  · exfalso
    have hc' : (den : ℚ) < 2 * ((num % den : Nat) : ℚ) := by exact_mod_cast hc
    have hm' : ((num % den : Nat) : ℚ) < den := by exact_mod_cast hm
    rw [he] at ht
    have h1 : 1 / 2 < ((num % den : Nat) : ℚ) / den := by rw [div_lt_div_iff₀ two_pos h]; linarith
    have h2 : ((num % den : Nat) : ℚ) / den < 1 := by rw [div_lt_one h]; linarith
    push_cast at ht
    rcases (abs_eq (by norm_num)).mp ht with h3 | h3 <;> linarith
  · rw [he, Nat.even_add]
    rcases Nat.mod_two_eq_zero_or_one (num / den) with h3 | h3
    · rw [h3]; simp [Nat.even_iff, h3]
    · rw [h3]; simp [Nat.even_iff, h3]

/-- An integer within one half is nearest. -/
theorem nearest_of_half {R k : ℤ} {x : ℚ} (h : |(R : ℚ) - x| ≤ 1 / 2) :
    |(R : ℚ) - x| ≤ |(k : ℚ) - x| := by
  by_cases hk : k = R
  · rw [hk]
  have h1 : (1 : ℚ) ≤ |(k : ℚ) - R| := by
    have : (1 : ℤ) ≤ |k - R| := Int.one_le_abs (sub_ne_zero.mpr hk)
    exact_mod_cast this
  have h2 : |(k : ℚ) - R| ≤ |(k : ℚ) - x| + |(R : ℚ) - x| := by
    rw [← abs_neg ((R : ℚ) - x)]
    have := abs_add_le ((k : ℚ) - x) (-((R : ℚ) - x))
    rwa [show (k : ℚ) - x + -((R : ℚ) - x) = (k : ℚ) - R by ring] at this
  linarith

/-- Two integers equally near are one half away. -/
theorem half_of_equidistant {R k : ℤ} {x : ℚ} (h : |(R : ℚ) - x| ≤ 1 / 2) (hk : k ≠ R)
    (he : |(R : ℚ) - x| = |(k : ℚ) - x|) : |(R : ℚ) - x| = 1 / 2 := by
  have h1 : (1 : ℚ) ≤ |(k : ℚ) - R| := by
    have : (1 : ℤ) ≤ |k - R| := Int.one_le_abs (sub_ne_zero.mpr hk)
    exact_mod_cast this
  have h2 : |(k : ℚ) - R| ≤ |(k : ℚ) - x| + |(R : ℚ) - x| := by
    rw [← abs_neg ((R : ℚ) - x)]
    have := abs_add_le ((k : ℚ) - x) (-((R : ℚ) - x))
    rwa [show (k : ℚ) - x + -((R : ℚ) - x) = (k : ℚ) - R by ring] at this
  linarith

/-! ## The value of an operand -/

theorem magnitude_eq (a : Angle) : magnitude a = significand a * 2 ^ binaryScale a := Nat.shiftLeft_eq _ _

theorem angleValue_eq (a : Angle) :
    angleValue a = (if signBit a then -1 else 1) * ((magnitude a : ℚ) / 2 ^ 1075) := by
  unfold angleValue
  congr 1
  rw [magnitude_eq, significand, binaryScale]
  split
  · next h =>
    rw [show (-1074 : ℤ) = 1 - 1075 by norm_num, zpow_sub₀ two_ne_zero]
    generalize hx : (2 : ℚ) ^ (1075 : ℤ) = x
    rw [show (2 : ℚ) ^ 1075 = x from hx]
    push_cast
    ring
  · next h =>
    push_cast
    rw [zpow_sub₀ two_ne_zero]
    norm_cast
    push_cast
    ring

theorem abs_angleValue (a : Angle) : |angleValue a| = (magnitude a : ℚ) / 2 ^ 1075 := by
  have h : (0 : ℚ) ≤ (magnitude a : ℚ) / 2 ^ 1075 := by positivity
  rw [angleValue_eq, abs_mul, abs_of_nonneg h]
  split <;> simp

theorem angleValue_eq_zero (a : Angle) : angleValue a = 0 ↔ magnitude a = 0 := by
  rw [← abs_eq_zero, abs_angleValue]
  simp

theorem expField_eq (a : Angle) : expField a = a.toNat / 2 ^ 52 % 2 ^ 11 := by
  simp [expField, BitVec.extractLsb'_toNat, Nat.shiftRight_eq_div_pow]

theorem fracField_eq (a : Angle) : fracField a = a.toNat % 2 ^ 52 := by
  simp [fracField, BitVec.extractLsb'_toNat]

theorem isFinite_iff (a : Angle) : isFinite a = true ↔ expField a < 2047 := by
  have : expField a < 2048 := by rw [expField_eq]; exact Nat.mod_lt _ (by norm_num)
  simp [isFinite]; omega

theorem significand_lt (a : Angle) : significand a < 2 ^ 53 := by
  have : fracField a < 2 ^ 52 := by rw [fracField_eq]; exact Nat.mod_lt _ (by norm_num)
  unfold significand; split <;> omega

/-! ## The other sign -/

theorem negAngle_fields (a : Angle) :
    expField (negAngle a) = expField a ∧ fracField (negAngle a) = fracField a ∧
      signBit (negAngle a) = !signBit a := by
  refine ⟨?_, ?_, ?_⟩
  · unfold expField negAngle; congr 1
    apply BitVec.eq_of_getLsbD_eq; intro i hi
    have : (0x8000000000000000#64).getLsbD (52 + i) = false := by revert i; decide
    simp [BitVec.getLsbD_extractLsb', BitVec.getLsbD_xor, this]
  · unfold fracField negAngle; congr 1
    apply BitVec.eq_of_getLsbD_eq; intro i hi
    have : (0x8000000000000000#64).getLsbD i = false := by revert i; decide
    simp [BitVec.getLsbD_extractLsb', BitVec.getLsbD_xor, this]
  · unfold signBit negAngle
    rw [BitVec.getLsbD_xor, show (0x8000000000000000#64).getLsbD 63 = true by decide, Bool.xor_true]

theorem magnitude_neg (a : Angle) : magnitude (negAngle a) = magnitude a := by
  obtain ⟨h1, h2, -⟩ := negAngle_fields a
  simp only [magnitude, significand, binaryScale, h1, h2]

theorem angleValue_negAngle (a : Angle) : angleValue (negAngle a) = - angleValue a := by
  rw [angleValue_eq, angleValue_eq, magnitude_neg, (negAngle_fields a).2.2]
  cases signBit a <;> simp

theorem isFinite_negAngle (a : Angle) : isFinite (negAngle a) = isFinite a := by
  simp only [isFinite, (negAngle_fields a).1]

/-! ## The step count -/

/-- The rational that `steps` rounds. -/
theorem steps_ratio (a : Angle) (spr : Spr) :
    ((magnitude a * spr.toNat : Nat) : ℚ) / ((360 <<< 1075 : Nat) : ℚ) = |angleValue a| * spr.toNat / 360 := by
  rw [abs_angleValue, Nat.shiftLeft_eq]
  push_cast
  field_simp

theorem steps_den_ne_zero : (360 <<< 1075 : Nat) ≠ 0 := by rw [Nat.shiftLeft_eq]; positivity

/-! ## A number from its sign and its other bits -/

theorem pack_toNat (s : Bool) {bits : Nat} (h : bits < 2 ^ 63) :
    (packAngle s bits).toNat = s.toNat * 2 ^ 63 + bits := by
  have : (packAngle s bits).toNat = (BitVec.ofBool s).toNat <<< 63 ||| (BitVec.ofNat 63 bits).toNat :=
    BitVec.toNat_append _ _
  rw [this, BitVec.toNat_ofNat, Nat.mod_eq_of_lt h, ← Nat.shiftLeft_add_eq_or_of_lt h, Nat.shiftLeft_eq]
  simp

theorem pack_fields (s : Bool) {bits : Nat} (h : bits < 2 ^ 63) :
    expField (packAngle s bits) = bits / 2 ^ 52 ∧ fracField (packAngle s bits) = bits % 2 ^ 52 ∧
      signBit (packAngle s bits) = s := by
  have ht := pack_toNat s h
  refine ⟨?_, ?_, ?_⟩
  · rw [expField_eq, ht]; cases s <;> simp <;> omega
  · rw [fracField_eq, ht]; cases s <;> simp <;> omega
  · rw [signBit, BitVec.getLsbD, Nat.testBit_eq_decide_div_mod_eq, ht]
    cases s <;> simp <;> omega

theorem infinityBits_eq : infinityBits = 2047 * 2 ^ 52 := Nat.shiftLeft_eq _ _

/-- The finite number with the exponent `E` and the significand `R`, which may have been rounded up to `2^53`. -/
theorem pack_magnitude (s : Bool) {E R : Nat} (hE : 1 ≤ E) (hR : R ≤ 2 ^ 53) (hlow : E = 1 ∨ 2 ^ 52 ≤ R)
    (hfin : (E - 1) * 2 ^ 52 + R < 2047 * 2 ^ 52) :
    magnitude (packAngle s ((E - 1) * 2 ^ 52 + R)) = R * 2 ^ E ∧
    significand (packAngle s ((E - 1) * 2 ^ 52 + R)) = if R = 2 ^ 53 then 2 ^ 52 else R := by
  obtain ⟨h1, h2, -⟩ := pack_fields s (show (E - 1) * 2 ^ 52 + R < 2 ^ 63 by omega)
  obtain ⟨k, rfl⟩ : ∃ k, E = k + 1 := ⟨E - 1, by omega⟩
  simp only [Nat.add_sub_cancel] at *
  rw [magnitude_eq, significand, binaryScale, h1, h2]
  rcases Nat.lt_or_ge R (2 ^ 52) with hr | hr
  · have hk : k = 0 := by omega
    subst hk
    have e1 : (0 * 2 ^ 52 + R) / 2 ^ 52 = 0 := by omega
    have e2 : (0 * 2 ^ 52 + R) % 2 ^ 52 = R := by omega
    rw [e1, e2, if_pos rfl, if_pos rfl, if_neg (by omega)]
    exact ⟨rfl, rfl⟩
  · rcases Nat.lt_or_ge R (2 ^ 53) with hr2 | hr2
    · have e1 : (k * 2 ^ 52 + R) / 2 ^ 52 = k + 1 := by omega
      have e2 : (k * 2 ^ 52 + R) % 2 ^ 52 = R - 2 ^ 52 := by omega
      rw [e1, e2, if_neg (by omega), if_neg (by omega), if_neg (by omega)]
      rw [show 2 ^ 52 + (R - 2 ^ 52) = R by omega]
      exact ⟨rfl, rfl⟩
    · have e0 : R = 2 ^ 53 := by omega
      have e1 : (k * 2 ^ 52 + R) / 2 ^ 52 = k + 2 := by omega
      have e2 : (k * 2 ^ 52 + R) % 2 ^ 52 = 0 := by omega
      rw [e1, e2, if_neg (by omega), if_neg (by omega), if_pos e0, e0]
      refine ⟨?_, rfl⟩
      ring

/-- The sign changes the sign of the value and nothing else. -/
theorem pack_sign (s : Bool) {bits : Nat} (h : bits < 2 ^ 63) :
    angleValue (packAngle s bits) = (if s then -1 else 1) * angleValue (packAngle false bits) ∧
    isFinite (packAngle s bits) = isFinite (packAngle false bits) ∧
    fracField (packAngle s bits) = fracField (packAngle false bits) ∧
    significand (packAngle s bits) = significand (packAngle false bits) := by
  obtain ⟨a1, a2, a3⟩ := pack_fields s h
  obtain ⟨b1, b2, b3⟩ := pack_fields false h
  have hm : magnitude (packAngle s bits) = magnitude (packAngle false bits) := by
    simp only [magnitude, significand, binaryScale, a1, a2, b1, b2]
  refine ⟨?_, ?_, by rw [a2, b2], by simp only [significand, a1, a2, b1, b2]⟩
  · rw [angleValue_eq, angleValue_eq, hm, a3, b3]; simp
  · simp only [isFinite, a1, b1]

theorem pack_not (s : Bool) (b : Nat) : packAngle (!s) b = negAngle (packAngle s b) := by
  have g : ∀ (s : Bool) i, (packAngle s b).getLsbD i =
      if i < 63 then (BitVec.ofNat 63 b).getLsbD i else (BitVec.ofBool s).getLsbD (i - 63) :=
    fun s i => BitVec.getLsbD_append
  apply BitVec.eq_of_getLsbD_eq
  intro i hi
  rw [negAngle, BitVec.getLsbD_xor, g, g]
  by_cases h : i < 63
  · have : ∀ i, i < 63 → (0x8000000000000000#64).getLsbD i = false := by decide
    rw [if_pos h, if_pos h, this i h, Bool.xor_false]
  · obtain rfl : i = 63 := by omega
    cases s <;> simp

/-! ## `roundMagnitude` -/

/-- The exponent chosen leaves a significand of 53 bits, or is that of the subnormals. -/
theorem roundScale_bounds (num den : Nat) (hd : den ≠ 0) :
    1 ≤ roundScale num den ∧
    (num : ℚ) / den * 2 ^ 1075 < 2 ^ (roundScale num den + 53) ∧
    (roundScale num den = 1 ∨ (2 : ℚ) ^ (roundScale num den + 52) ≤ (num : ℚ) / den * 2 ^ 1075) := by
  have hdq : (0 : ℚ) < den := by exact_mod_cast Nat.pos_of_ne_zero hd
  have hx : (num : ℚ) / den * (2 : ℚ) ^ 1075 = ((num <<< 1075 : Nat) : ℚ) / den := by
    rw [Nat.shiftLeft_eq, Nat.cast_mul, Nat.cast_pow, Nat.cast_ofNat, div_mul_eq_mul_div]
  rw [hx]
  unfold roundScale
  generalize num <<< 1075 = N
  have hlt : N < (N / den + 1) * den := by rw [mul_comm]; exact Nat.lt_mul_div_succ N (Nat.pos_of_ne_zero hd)
  have hle : N / den * den ≤ N := Nat.div_mul_le_self N den
  have up : ∀ k, N / den < 2 ^ k → (N : ℚ) / den < 2 ^ k := by
    intro k hk
    rw [div_lt_iff₀ hdq]
    have : N < 2 ^ k * den := lt_of_lt_of_le hlt (Nat.mul_le_mul_right _ hk)
    exact_mod_cast this
  have lo : ∀ k, 2 ^ k ≤ N / den → (2 : ℚ) ^ k ≤ (N : ℚ) / den := by
    intro k hk
    rw [le_div_iff₀ hdq]
    have : 2 ^ k * den ≤ N := le_trans (Nat.mul_le_mul_right _ hk) hle
    exact_mod_cast this
  have hlog : N / den < 2 ^ ((N / den).log2 + 1) := Nat.lt_log2_self
  refine ⟨le_max_left _ _, ?_, ?_⟩
  · apply up
    refine lt_of_lt_of_le hlog (Nat.pow_le_pow_right two_pos ?_)
    omega
  · by_cases h : (N / den).log2 - 52 ≤ 1
    · left; omega
    · right
      apply lo
      rw [show max 1 ((N / den).log2 - 52) + 52 = (N / den).log2 by omega]
      apply Nat.log2_self_le
      intro h0; rw [h0] at h; simp at h

/-- A finite number is a multiple of the unit of the exponent `E`, or is below all numbers of that exponent. -/
theorem multiple_or_below (b : Angle) (E : Nat) {U : ℚ} (hU : 0 < U)
    (hv0 : ∀ a, angleValue a = (if signBit a then -1 else 1) * ((magnitude a : ℚ) / U)) :
    (∃ k : ℤ, angleValue b * U = k * 2 ^ E) ∨ angleValue b * U < 2 ^ (E + 52) ∧ 2 ≤ E := by
  have hv : angleValue b * U = (if signBit b then -1 else 1) * (magnitude b : ℚ) := by
    rw [hv0, mul_assoc, div_mul_cancel₀]
    positivity
  rw [hv, magnitude_eq]
  have h1 : 1 ≤ binaryScale b := by unfold binaryScale; split <;> omega
  have hs := significand_lt b
  clear hv
  revert h1 hs
  generalize binaryScale b = z
  generalize significand b = m
  intro h1 hs
  rcases Nat.lt_or_ge z E with h | h
  · right
    refine ⟨?_, by omega⟩
    have h3 : m * 2 ^ z < 2 ^ (E + 52) := by
      have h1 : 2 ^ (53 + z) ≤ 2 ^ (E + 52) := Nat.pow_le_pow_right two_pos (by omega)
      rw [Nat.pow_add] at h1
      have h2 : 0 < 2 ^ z := Nat.pow_pos two_pos
      exact lt_of_lt_of_le (mul_lt_mul_of_pos_right hs h2) h1
    have hq : ((m * 2 ^ z : Nat) : ℚ) < 2 ^ (E + 52) := by exact_mod_cast h3
    have h0 : (0 : ℚ) ≤ ((m * 2 ^ z : Nat) : ℚ) := Nat.cast_nonneg _
    clear h3 hs
    revert hq h0
    generalize ((m * 2 ^ z : Nat) : ℚ) = q
    generalize (2 : ℚ) ^ (E + 52) = p
    intro hq h0
    split <;> linarith
  · left
    obtain ⟨d, rfl⟩ : ∃ d, z = d + E := ⟨z - E, by omega⟩
    refine ⟨(if signBit b then -1 else 1) * (m * 2 ^ d : Nat), ?_⟩
    push_cast; rw [pow_add]; ring

/-- The unit `2^(-1075)` as an opaque number: nothing then evaluates its power. -/
theorem exists_unit : ∃ U : ℚ, U = 2 ^ 1075 ∧ 0 < U ∧
    (∀ a, angleValue a = (if signBit a then -1 else 1) * ((magnitude a : ℚ) / U)) ∧
    ((2 : ℚ) ^ 1024 - 2 ^ 970) * U = (2 ^ 53 - 1 / 2) * 2 ^ 2046 := by
  refine ⟨_, rfl, (by positivity), angleValue_eq, ?_⟩
  rw [show (1075 : Nat) = 970 + 105 from rfl, show (1024 : Nat) = 970 + 54 from rfl,
    show (2046 : Nat) = 970 + 970 + 106 from rfl]
  simp only [pow_add]
  generalize (2 : ℚ) ^ 970 = z
  ring

theorem roundMagnitude_lt (num den : Nat) : roundMagnitude num den < 2 ^ 63 := by
  rw [roundMagnitude, infinityBits_eq]
  refine lt_of_le_of_lt (min_le_left _ _) (by norm_num)

theorem unitScale_eq : unitScale = 2 ^ 1075 := by rw [unitScale, Nat.shiftLeft_eq, one_mul]

end Sys2Proof.Machine
end

