-- ==== Sys2Proof/Laws/Step.lean ====
section
/-! SUPPORT. What one step can do: an equation for each micro-state and one inversion lemma, from which every claim about
all steps follows. -/

namespace Sys2Proof.Machine

theorem active_iff (s : State) : active s = true ↔ s.inputs.rst = false ∧ s.rstHeld = false := by
  simp [active]

/-! ## The command port -/

theorem fetch_eq_some {s : State} {w : CmdWord} :
    fetch s = some w ↔ active s = true ∧ s.seq = .idle ∧ s.inputs.present = true ∧ s.cmds.head? = some w := by
  rw [fetch, Option.ite_none_right_eq_some]
  simp [accepting, active, and_assoc]

theorem fetch_eq_none_of_seq {s : State} (h : s.seq ≠ .idle) : fetch s = none := by
  simp [fetch, accepting, h]

theorem fetch_eq_none_of_inactive {s : State} (h : active s = false) : fetch s = none := by
  cases hf : fetch s with
  | none => rfl
  | some w => rw [(fetch_eq_some.mp hf).1] at h; cases h

theorem fetch_eq_none_of_absent {s : State} (h : s.inputs.present = false ∨ s.cmds = []) : fetch s = none := by
  rcases h with h | h <;> simp [fetch, accepting, h]

/-- An accepted command is the head of the host's list. -/
theorem cmds_of_fetch {s : State} {w : CmdWord} (h : fetch s = some w) : s.cmds = w :: s.cmds.tail := by
  have := (fetch_eq_some.mp h).2.2.2
  cases hc : s.cmds with
  | nil => simp [hc] at this
  | cons v vs => simp only [hc, List.head?_cons, Option.some.injEq] at this; simp [this]

/-! ## The iteration and the wait -/

theorem iterate_fails {s : State} (h : s.inputs.wrFail = true) : iterate s = raise .pinWriteFailure s := by
  simp [iterate, h]

theorem iterate_last {s : State} (hw : s.inputs.wrFail = false) (hr : s.rem = 1) :
    iterate s = { s with
      out := tableRead s.ct s.phase, phase := s.phase + delta s.dir, rem := 0, status := 0, seq := .idle
      done := true } := by
  have h0 : countDone ((1 : Count) - 1) = true := rfl
  simp only [iterate, hw, hr, Bool.false_eq_true, if_false, advancePhase, outWrite, h0, if_true, complete, okCode,
    stickyFault_ok]
  rfl

theorem iterate_more {s : State} (hw : s.inputs.wrFail = false) (hr : s.rem ≠ 1) :
    iterate s = { s with
      out := tableRead s.ct s.phase, phase := s.phase + delta s.dir, rem := s.rem - 1, tmr := s.cfgInterval
      seq := .wait } := by
  have h0 : countDone (s.rem - 1) ≠ true := by rw [Ne, countDone_iff]; bv_omega
  simp only [iterate, hw, Bool.false_eq_true, if_false, advancePhase, outWrite, h0]

theorem waitTick_cancelled {s : State} (h : s.inputs.cancel = true) :
    waitTick s = raise .interruptedOperation s := by
  simp [waitTick, h]

theorem waitTick_expires {s : State} (hc : s.inputs.cancel = false) (ht : s.tmr = 1) :
    waitTick s = { s with tmr := 0, seq := .drive } := by
  unfold waitTick
  rw [hc, if_neg Bool.false_ne_true, if_pos ((timerExpires_iff _).mpr ht)]

theorem waitTick_counts {s : State} (hc : s.inputs.cancel = false) (ht : s.tmr ≠ 1) :
    waitTick s = { s with tmr := s.tmr - 1 } := by
  unfold waitTick
  rw [hc, if_neg Bool.false_ne_true, if_neg (by rwa [timerExpires_iff])]

/-! ## One step -/

theorem step_of_fetch_instr {s : State} {w : CmdWord} {i : Instr} (hf : fetch s = some w) (hd : decode w = .instr i) :
    step s = .next (nextInputs (effect i (takeCommand (startTick s)))) := by
  simp [step, hf, execWord, hd, exec_eq, finishTick]

theorem step_of_fetch_illegal {s : State} {w : CmdWord} {why : Illegal} (hf : fetch s = some w)
    (hd : decode w = .illegal why) :
    step s = .next (nextInputs (raise .badCommand (takeCommand (startTick s)))) := by
  simp [step, hf, execWord, hd, finishTick]

theorem step_of_no_fetch {s : State} (hf : fetch s = none) : step s = .next (nextInputs (runTick (startTick s))) := by
  simp [step, hf, finishTick]

theorem step_of_reset {s : State} (h : s.inputs.rst = true) :
    step s = .next (nextInputs (holdReset (startTick s))) := by
  rw [step_of_no_fetch (fetch_eq_none_of_inactive (by simp [active, h]))]
  simp [runTick, h]

theorem step_of_release {s : State} (h : s.inputs.rst = false) (hh : s.rstHeld = true) :
    step s = .next (nextInputs (init s.inputs (releaseReset (startTick s)))) := by
  rw [step_of_no_fetch (fetch_eq_none_of_inactive (by simp [active, hh]))]
  simp [runTick, h, hh]

theorem runTick_active {s : State} (h : active s = true) : runTick s = seqTick s := by
  rw [active_iff] at h; simp [runTick, h]

@[simp] theorem active_startTick (s : State) : active (startTick s) = active s := rfl

theorem step_of_drive {s : State} (ha : active s = true) (hs : s.seq = .drive) :
    step s = .next (nextInputs (iterate (startTick s))) := by
  rw [step_of_no_fetch (fetch_eq_none_of_seq (by simp [hs])), runTick_active (s := startTick s) ha]
  simp [seqTick, hs]

theorem step_of_wait {s : State} (ha : active s = true) (hs : s.seq = .wait) :
    step s = .next (nextInputs (waitTick (startTick s))) := by
  rw [step_of_no_fetch (fetch_eq_none_of_seq (by simp [hs])), runTick_active (s := startTick s) ha]
  simp [seqTick, hs]

theorem step_of_failed {s : State} (ha : active s = true) (hs : s.seq = .failed) :
    step s = .next (nextInputs (startTick s)) := by
  rw [step_of_no_fetch (fetch_eq_none_of_seq (by simp [hs])), runTick_active (s := startTick s) ha]
  simp [seqTick, hs]

theorem step_of_idle {s : State} (ha : active s = true) (hs : s.seq = .idle) (hf : fetch s = none) :
    step s = .next (nextInputs (startTick s)) := by
  rw [step_of_no_fetch hf, runTick_active (s := startTick s) ha]
  simp [seqTick, hs]

/-! ## All that accepting an instruction can do -/

/-- A STOP; the completion or the refusal of a command of no steps; or the start of the loop. -/
theorem effect_cases (i : Instr) (s : State) :
    (i = .stop ∧ commandedCount s.cfgSpr i = 0 ∧ effect i s = complete okCode (outOff s)) ∨
    (i ≠ .stop ∧ commandedCount s.cfgSpr i = 0 ∧
      (effect i s = complete okCode s ∨ effect i s = raise .badCommand s)) ∨
    (i ≠ .stop ∧ ∃ (n : Count) (cw : Bool), n ≠ 0 ∧ commandedCount s.cfgSpr i = n.toNat ∧
      effect i s = { s with dir := cw, rem := n, seq := .drive }) := by
  have key : ∀ (n : Count) (cw : Bool),
      (n = 0 ∧ acceptStep n cw s = complete okCode s) ∨
      (n ≠ 0 ∧ acceptStep n cw s = { s with dir := cw, rem := n, seq := .drive }) := by
    intro n cw
    by_cases h : n = 0
    · exact .inl ⟨h, by subst h; exact acceptStep_zero cw s⟩
    · exact .inr ⟨h, acceptStep_pos h cw s⟩
  have rot : ∀ (a : Angle),
      ((if isFinite a && fitsCount (steps a s.cfgSpr) then steps a s.cfgSpr else 0) = 0 ∧
        (rotateBy a s = complete okCode s ∨ rotateBy a s = raise .badCommand s)) ∨
      (∃ (n : Count) (cw : Bool), n ≠ 0 ∧
        (if isFinite a && fitsCount (steps a s.cfgSpr) then steps a s.cfgSpr else 0) = n.toNat ∧
        rotateBy a s = { s with dir := cw, rem := n, seq := .drive }) := by
    intro a
    by_cases hc : (isFinite a && fitsCount (steps a s.cfgSpr)) = true
    · have hlt := (fitsCount_iff _).mp (Bool.and_eq_true _ _ ▸ hc).2
      have hr : rotateBy a s = acceptStep (BitVec.ofNat 32 (steps a s.cfgSpr)) (dirOf a) s :=
        rotateBy_fits (Bool.and_eq_true _ _ ▸ hc).1 hlt
      rw [if_pos hc, hr]
      have hto : (BitVec.ofNat 32 (steps a s.cfgSpr)).toNat = steps a s.cfgSpr := by
        rw [BitVec.toNat_ofNat, Nat.mod_eq_of_lt hlt]
      rcases key (BitVec.ofNat 32 (steps a s.cfgSpr)) (dirOf a) with ⟨h0, h⟩ | ⟨h0, h⟩
      · exact .inl ⟨by rw [← hto, h0]; rfl, .inl h⟩
      · exact .inr ⟨_, _, h0, hto.symm, h⟩
    · rw [if_neg hc]
      exact .inl ⟨rfl, .inr (by rw [rotateBy, if_neg hc])⟩
  cases i with
  | stop => exact .inl ⟨rfl, rfl, rfl⟩
  | step n cw =>
    rcases key n cw with ⟨h0, h⟩ | ⟨h0, h⟩
    · exact .inr (.inl ⟨by simp, by simp [commandedCount, h0], .inl h⟩)
    · exact .inr (.inr ⟨by simp, n, cw, h0, rfl, h⟩)
  | rotate a =>
    rcases rot a with ⟨h0, h⟩ | ⟨n, cw, h0, h1, h⟩
    · exact .inr (.inl ⟨by simp, h0, h⟩)
    · exact .inr (.inr ⟨by simp, n, cw, h0, h1, h⟩)
  | rotateRad r =>
    by_cases hr : isFinite r = true
    · have hc : commandedCount s.cfgSpr (.rotateRad r) =
          if isFinite (rad2deg r) && fitsCount (steps (rad2deg r) s.cfgSpr) then steps (rad2deg r) s.cfgSpr else 0 := by
        simp [commandedCount, hr]
      have he : effect (.rotateRad r) s = rotateBy (rad2deg r) s := by simp [effect, hr]
      rw [hc, he]
      rcases rot (rad2deg r) with ⟨h0, h⟩ | ⟨n, cw, h0, h1, h⟩
      · exact .inr (.inl ⟨by simp, h0, h⟩)
      · exact .inr (.inr ⟨by simp, n, cw, h0, h1, h⟩)
    · exact .inr (.inl ⟨by simp, by simp [commandedCount, hr], .inr (by simp [effect, hr])⟩)

/-- `effect_cases` with the states written out. -/
theorem effect_states (i : Instr) (s : State) :
    (i = .stop ∧ commandedCount s.cfgSpr i = 0 ∧
      effect i s = { s with out := 0, status := 0, seq := .idle, done := true }) ∨
    (i ≠ .stop ∧ commandedCount s.cfgSpr i = 0 ∧
      (effect i s = { s with status := 0, seq := .idle, done := true } ∨
        effect i s = { s with status := 4, seq := .idle, fault := true, done := true })) ∨
    (i ≠ .stop ∧ ∃ (n : Count) (cw : Bool), n ≠ 0 ∧ commandedCount s.cfgSpr i = n.toNat ∧
      effect i s = { s with dir := cw, rem := n, seq := .drive }) := by
  have hc : ∀ t : State, complete okCode t = { t with status := 0, seq := .idle, done := true } := by
    intro t; simp [complete, okCode]
  rcases effect_cases i s with ⟨h1, h2, h3⟩ | ⟨h1, h2, h3⟩ | h
  · exact .inl ⟨h1, h2, by rw [h3, hc]; rfl⟩
  · rw [hc, raise_badCommand] at h3
    exact .inr (.inl ⟨h1, h2, h3⟩)
  · exact .inr (.inr h)

/-- All that one step can do before it meets the next input levels: the condition of each case, and the state it
leaves. -/
inductive Did (s : State) : State → Prop where
  /-- Held in reset. -/
  | held (h : s.inputs.rst = true) : Did s (holdReset (startTick s))
  /-- INIT, at the release of reset. -/
  | inited (h : s.inputs.rst = false) (hh : s.rstHeld = true) : Did s (init s.inputs (releaseReset (startTick s)))
  /-- FAILED, or IDLE with no command. -/
  | rested (ha : active s = true) (hs : s.seq = .failed ∨ (s.seq = .idle ∧ fetch s = none)) : Did s (startTick s)
  /-- An illegal word. -/
  | rejected (ha : active s = true) (hs : s.seq = .idle) {w : CmdWord} {why : Illegal} (hf : fetch s = some w)
      (hd : decode w = .illegal why) :
      Did s { s with cmds := s.cmds.tail, status := 4, seq := .idle, fault := true, done := true }
  /-- A STOP. -/
  | stopped (ha : active s = true) (hs : s.seq = .idle) {w : CmdWord} (hf : fetch s = some w)
      (hd : decode w = .instr .stop) :
      Did s { s with cmds := s.cmds.tail, out := 0, status := 0, seq := .idle, done := true }
  /-- A command of no steps. -/
  | completed (ha : active s = true) (hs : s.seq = .idle) {w : CmdWord} {i : Instr} (hf : fetch s = some w)
      (hd : decode w = .instr i) (hi : i ≠ .stop) (hn : commandedCount s.cfgSpr i = 0) :
      Did s { s with cmds := s.cmds.tail, status := 0, seq := .idle, done := true }
  /-- A rotation that is refused. -/
  | refused (ha : active s = true) (hs : s.seq = .idle) {w : CmdWord} {i : Instr} (hf : fetch s = some w)
      (hd : decode w = .instr i) (hi : i ≠ .stop) (hn : commandedCount s.cfgSpr i = 0) :
      Did s { s with cmds := s.cmds.tail, status := 4, seq := .idle, fault := true, done := true }
  /-- The start of a loop. -/
  | started (ha : active s = true) (hs : s.seq = .idle) {w : CmdWord} {i : Instr} (hf : fetch s = some w)
      (hd : decode w = .instr i) (hi : i ≠ .stop) {n : Count} {cw : Bool} (hn : n ≠ 0)
      (hc : commandedCount s.cfgSpr i = n.toNat) :
      Did s { s with cmds := s.cmds.tail, done := false, dir := cw, rem := n, seq := .drive }
  /-- A failed write. -/
  | writeFailed (ha : active s = true) (hs : s.seq = .drive) (hw : s.inputs.wrFail = true) :
      Did s (raise .pinWriteFailure (startTick s))
  /-- The last iteration. -/
  | finished (ha : active s = true) (hs : s.seq = .drive) (hw : s.inputs.wrFail = false) (hr : s.rem = 1) :
      Did s { s with
        out := tableRead s.ct s.phase, phase := s.phase + delta s.dir, rem := 0, status := 0, seq := .idle
        done := true }
  /-- An iteration with more to come. -/
  | iterated (ha : active s = true) (hs : s.seq = .drive) (hw : s.inputs.wrFail = false) (hr : s.rem ≠ 1) :
      Did s { s with
        out := tableRead s.ct s.phase, phase := s.phase + delta s.dir, rem := s.rem - 1, tmr := s.cfgInterval
        seq := .wait, done := false }
  /-- A cancellation. -/
  | cancelled (ha : active s = true) (hs : s.seq = .wait) (hc : s.inputs.cancel = true) :
      Did s (raise .interruptedOperation (startTick s))
  /-- The last tick of a wait. -/
  | expired (ha : active s = true) (hs : s.seq = .wait) (hc : s.inputs.cancel = false) (ht : s.tmr = 1) :
      Did s { s with tmr := 0, seq := .drive, done := false }
  /-- A tick of a wait. -/
  | counted (ha : active s = true) (hs : s.seq = .wait) (hc : s.inputs.cancel = false) (ht : s.tmr ≠ 1) :
      Did s { s with tmr := s.tmr - 1, done := false }

/-- Every state has a next state, which is what the step did followed by the next input levels. -/
theorem step_did (s : State) : ∃ u, Did s u ∧ step s = .next (nextInputs u) := by
  by_cases hr : s.inputs.rst = true
  · exact ⟨_, .held hr, step_of_reset hr⟩
  rw [Bool.not_eq_true] at hr
  by_cases hh : s.rstHeld = true
  · exact ⟨_, .inited hr hh, step_of_release hr hh⟩
  rw [Bool.not_eq_true] at hh
  have ha : active s = true := (active_iff s).mpr ⟨hr, hh⟩
  cases hs : s.seq with
  | failed => exact ⟨_, .rested ha (.inl hs), step_of_failed ha hs⟩
  | drive =>
    rw [step_of_drive ha hs]
    cases hw : s.inputs.wrFail
    · by_cases h1 : s.rem = 1
      · exact ⟨_, .finished ha hs hw h1, by rw [iterate_last (s := startTick s) hw h1]; rfl⟩
      · exact ⟨_, .iterated ha hs hw h1, by rw [iterate_more (s := startTick s) hw h1]; rfl⟩
    · exact ⟨_, .writeFailed ha hs hw, by rw [iterate_fails (s := startTick s) hw]⟩
  | wait =>
    rw [step_of_wait ha hs]
    cases hc : s.inputs.cancel
    · by_cases h1 : s.tmr = 1
      · exact ⟨_, .expired ha hs hc h1, by rw [waitTick_expires (s := startTick s) hc h1]; rfl⟩
      · exact ⟨_, .counted ha hs hc h1, by rw [waitTick_counts (s := startTick s) hc h1]; rfl⟩
    · exact ⟨_, .cancelled ha hs hc, by rw [waitTick_cancelled (s := startTick s) hc]⟩
  | idle =>
    cases hf : fetch s with
    | none => exact ⟨_, .rested ha (.inr ⟨hs, hf⟩), step_of_idle ha hs hf⟩
    | some w =>
      cases hd : decode w with
      | illegal why =>
        exact ⟨_, .rejected ha hs hf hd, by rw [step_of_fetch_illegal hf hd, raise_badCommand]; rfl⟩
      | instr i =>
        rw [step_of_fetch_instr hf hd]
        rcases effect_states i (takeCommand (startTick s)) with ⟨h1, -, h⟩ | ⟨h1, h2, h | h⟩ | ⟨h1, n, cw, h2, h3, h⟩
        · exact ⟨_, .stopped ha hs hf (h1 ▸ hd), by rw [h]; rfl⟩
        · exact ⟨_, .completed ha hs hf hd h1 h2, by rw [h]; rfl⟩
        · exact ⟨_, .refused ha hs hf hd h1 h2, by rw [h]; rfl⟩
        · exact ⟨_, .started ha hs hf hd h1 h2 h3, by rw [h]; rfl⟩

/-- Inversion: from the next state, what the step did. -/
theorem did_of_step {s t : State} (h : step s = .next t) : ∃ u, Did s u ∧ t = nextInputs u := by
  obtain ⟨u, hu, hs⟩ := step_did s
  rw [hs] at h
  injection h with h
  exact ⟨u, hu, h.symm⟩

/-! ## Runs -/

theorem runSteps_succ {s t : State} (h : step s = .next t) (k : Nat) : runSteps (k + 1) s = runSteps k t := by
  simp [runSteps, h]

theorem holdsFor_succ {p : State → Bool} {s t : State} (h : step s = .next t) (k : Nat) :
    holdsFor p (k + 1) s = (p s && holdsFor p k t) := by
  simp [holdsFor, h]

theorem trace_succ {s t : State} (h : step s = .next t) (k : Nat) :
    trace (k + 1) s = stepEvents s t ++ trace k t := by
  simp [trace, h]

theorem historyAlong_succ {s t : State} (h : step s = .next t) (k : Nat) (past : History) :
    historyAlong (k + 1) past s = historyAlong k (past.after s t) t := by
  simp [historyAlong, h]

/-- A run never stops. -/
theorem runSteps_next (k : Nat) (s : State) : ∃ t, runSteps k s = .next t := by
  induction k generalizing s with
  | zero => exact ⟨s, rfl⟩
  | succ k ih =>
    obtain ⟨u, -, hs⟩ := step_did s
    rw [runSteps_succ hs]
    exact ih _

/-- A run in two parts. -/
theorem runSteps_add {j : Nat} {s t : State} (h : runSteps j s = .next t) (k : Nat) :
    runSteps (j + k) s = runSteps k t := by
  induction j generalizing s with
  | zero => injection h with h; subst h; simp
  | succ j ih =>
    obtain ⟨u, -, hs⟩ := step_did s
    rw [runSteps_succ hs] at h
    rw [Nat.add_right_comm, runSteps_succ hs, ih h]

theorem holdsFor_add {p : State → Bool} {j : Nat} {s t : State} (h : runSteps j s = .next t) (k : Nat) :
    holdsFor p (j + k) s = (holdsFor p j s && holdsFor p k t) := by
  induction j generalizing s with
  | zero => injection h with h; subst h; simp [holdsFor]
  | succ j ih =>
    obtain ⟨u, -, hs⟩ := step_did s
    rw [runSteps_succ hs] at h
    rw [Nat.add_right_comm, holdsFor_succ hs, holdsFor_succ hs, ih h, Bool.and_assoc]

theorem trace_add {j : Nat} {s t : State} (h : runSteps j s = .next t) (k : Nat) :
    trace (j + k) s = trace j s ++ trace k t := by
  induction j generalizing s with
  | zero => injection h with h; subst h; simp [trace]
  | succ j ih =>
    obtain ⟨u, -, hs⟩ := step_did s
    rw [runSteps_succ hs] at h
    rw [Nat.add_right_comm, trace_succ hs, trace_succ hs, ih h, List.append_assoc]

/-- A property of every reachable state: it holds at the start and every step keeps it. -/
theorem runSteps_invariant {P : State → Prop} (keep : ∀ s t, P s → step s = .next t → P t) {k : Nat} {s t : State}
    (h0 : P s) (h : runSteps k s = .next t) : P t := by
  induction k generalizing s with
  | zero => injection h with h; exact h ▸ h0
  | succ k ih =>
    obtain ⟨u, -, hs⟩ := step_did s
    rw [runSteps_succ hs] at h
    exact ih (keep _ _ h0 hs) h

end Sys2Proof.Machine
end

