-- ==== Sys2Proof/Laws/Run.lean ====
section
/-! SUPPORT. What an undisturbed run does, part by part: the acceptance of a STEP, a wait or a part of one, an iteration
with its wait, `k` of them, and the last iteration. Each gives the state, whatever the input levels have become, and the
letters of its trace. -/

namespace Sys2Proof.Machine

/-! ## Runs in parts -/

theorem nextInputs_eq (s : State) : ∃ i l, nextInputs s = { s with inputs := i, later := l } := by
  cases h : s.later with
  | nil => exact ⟨s.inputs, [], by rw [nextInputs_nil h, ← h]⟩
  | cons p ps => exact ⟨p, ps, nextInputs_cons h⟩

theorem holdsFor_head {p : State → Bool} {k : Nat} {s : State} (h : holdsFor p (k + 1) s = true) : p s = true := by
  obtain ⟨u, -, hst⟩ := step_did s
  rw [holdsFor_succ hst] at h; simp at h; exact h.1

theorem holdsFor_tail {p : State → Bool} {k : Nat} {s t : State} (h : holdsFor p (k + 1) s = true)
    (hst : step s = .next t) : holdsFor p k t = true := by
  rw [holdsFor_succ hst] at h; simp at h; exact h.2

theorem holdsFor_split {p : State → Bool} {j k : Nat} {s t : State} (h : holdsFor p (j + k) s = true)
    (hst : runSteps j s = .next t) : holdsFor p j s = true ∧ holdsFor p k t = true := by
  rw [holdsFor_add hst] at h; simpa using h

theorem holdsFor_mono {p q : State → Bool} (h : ∀ s, p s = true → q s = true) {k : Nat} {s : State}
    (hp : holdsFor p k s = true) : holdsFor q k s = true := by
  induction k generalizing s with
  | zero => rfl
  | succ k ih =>
    obtain ⟨u, -, hst⟩ := step_did s
    rw [holdsFor_succ hst] at *
    simp at *
    exact ⟨h _ hp.1, ih hp.2⟩

theorem undisturbed_iff (s : State) :
    undisturbed s = true ↔ active s = true ∧ (s.seq = .drive → s.inputs.wrFail = false) ∧
      (s.seq = .wait → s.inputs.cancel = false) := by
  cases h : s.seq <;> simp [undisturbed, h]

/-- No reset comes later either. -/
theorem neverReset_next {s : State} (h : neverReset s = true) {u : State} (h1 : u.inputs = s.inputs)
    (h2 : u.later = s.later) (h3 : u.rstHeld = s.rstHeld) : neverReset (nextInputs u) = true := by
  simp only [neverReset, active, Bool.and_eq_true, Bool.not_eq_true', List.all_eq_true] at *
  cases hl : u.later with
  | nil => rw [nextInputs_nil hl, h1, h2, h3]; exact h
  | cons p ps =>
    rw [nextInputs_cons hl]
    refine ⟨⟨?_, by simpa [h3] using h.1.2⟩, fun x hx => ?_⟩
    · exact h.2 p (by rw [← h2, hl]; simp)
    · exact h.2 x (by rw [← h2, hl]; simp [hx])

/-! ## Phases and traces -/

theorem delta_succ (cw : Bool) (k : Nat) (p : Phase) :
    p + delta cw + delta cw * BitVec.ofNat 3 k = p + delta cw * BitVec.ofNat 3 (k + 1) := by
  have : BitVec.ofNat 3 (k + 1) = BitVec.ofNat 3 k + 1 := by bv_omega
  rw [this]
  generalize BitVec.ofNat 3 k = x
  revert p cw x; decide

theorem intersperse_append_singleton {α : Type} (sep a : α) (l : List α) :
    (l ++ [a]).intersperse sep = l.flatMap (fun x => [x, sep]) ++ [a] := by
  induction l with
  | nil => rfl
  | cons x xs ih =>
    cases xs with
    | nil => rfl
    | cons y ys => simp at ih ⊢; rw [ih]

theorem writesFrom_succ (ct : Vector Pattern 8) (p : Phase) (cw : Bool) (k : Nat) :
    writesFrom ct p cw (k + 1) =
      (List.range k).flatMap (fun j => [.write (entryFrom ct p cw j), .waited]) ++
        [.write (entryFrom ct p cw k)] := by
  rw [writesFrom, List.range_succ, List.map_append, List.map_singleton, intersperse_append_singleton,
    List.flatMap_map]

/-! ## The parts of a STEP -/

/-- The acceptance of a STEP of at least one iteration, which writes nothing. -/
theorem accept_step {s : State} {w : CmdWord} {n : Count} {cw : Bool} (hf : fetch s = some w)
    (hd : decode w = .instr (.step n cw)) (hn : n ≠ 0) :
    ∃ i l, ∃ t, step s = .next t ∧ stepEvents s t = [] ∧ t = { s with
      cmds := s.cmds.tail, done := false, dir := cw, rem := n, seq := .drive, inputs := i, later := l } := by
  have hst := step_of_fetch_instr hf hd
  rw [effect, acceptStep_pos hn] at hst
  obtain ⟨i, l, he⟩ := nextInputs_eq { takeCommand (startTick s) with dir := cw, rem := n, seq := .drive }
  rw [he] at hst
  refine ⟨i, l, _, hst, ?_, rfl⟩
  have := fetch_eq_some.mp hf
  simp [stepEvents, outputEvents, this, stopAccepted, hf, hd]

/-- A part of a wait. -/
theorem wait_part {s : State} (j : Nat) (hs : s.seq = .wait) (hj : j < s.tmr.toNat)
    (hu : holdsFor undisturbed j s = true) :
    ∃ i l d, runSteps j s = .next { s with
        tmr := s.tmr - BitVec.ofNat 32 j, done := d, inputs := i, later := l } ∧
      trace j s = [] := by
  induction j generalizing s with
  | zero => exact ⟨s.inputs, s.later, s.done, by simp [runSteps], rfl⟩
  | succ j ih =>
    obtain ⟨ha, -, hc⟩ := (undisturbed_iff s).mp (holdsFor_head hu)
    have h1 : s.tmr ≠ 1 := by rintro h; rw [h] at hj; simp at hj
    have hst := step_of_wait ha hs
    rw [waitTick_counts (s := startTick s) (hc hs) h1] at hst
    obtain ⟨i, l, he⟩ := nextInputs_eq { startTick s with tmr := (startTick s).tmr - 1 }
    rw [he] at hst
    have hsub : (s.tmr - 1).toNat = s.tmr.toNat - 1 := by bv_omega
    obtain ⟨i', l', d', h1', h2'⟩ := ih
      (s := { startTick s with tmr := (startTick s).tmr - 1, inputs := i, later := l }) hs
      (by show j < (s.tmr - 1).toNat; omega) (holdsFor_tail hu hst)
    refine ⟨i', l', d', ?_, ?_⟩
    · rw [runSteps_succ hst, h1']
      have : s.tmr - 1 - BitVec.ofNat 32 j = s.tmr - BitVec.ofNat 32 (j + 1) := by bv_omega
      simp [startTick]
      exact this
    · rw [trace_succ hst, h2']
      simp [stepEvents, outputEvents, ha, hs, hc hs, startTick]

/-- The last tick of a wait. -/
theorem wait_expires {s : State} (hs : s.seq = .wait) (ht : s.tmr = 1) (hu : undisturbed s = true) :
    ∃ i l, ∃ t, step s = .next t ∧ stepEvents s t = [.waited] ∧
      t = { s with tmr := 0, seq := .drive, done := false, inputs := i, later := l } := by
  obtain ⟨ha, -, hc⟩ := (undisturbed_iff s).mp hu
  have hst := step_of_wait ha hs
  rw [waitTick_expires (s := startTick s) (hc hs) ht] at hst
  obtain ⟨i, l, he⟩ := nextInputs_eq { startTick s with tmr := 0, seq := .drive }
  rw [he] at hst
  refine ⟨i, l, _, hst, ?_, rfl⟩
  simp [stepEvents, outputEvents, ha, hs, hc hs]

/-- A whole wait. -/
theorem wait_whole {s : State} (hs : s.seq = .wait) (ht : s.tmr ≠ 0)
    (hu : holdsFor undisturbed s.tmr.toNat s = true) :
    ∃ i l, runSteps s.tmr.toNat s = .next { s with
        tmr := 0, seq := .drive, done := false, inputs := i, later := l } ∧
      trace s.tmr.toNat s = [.waited] := by
  have h0 : 1 ≤ s.tmr.toNat := by bv_omega
  obtain ⟨k, hk⟩ : ∃ k, s.tmr.toNat = k + 1 := ⟨s.tmr.toNat - 1, by omega⟩
  rw [hk] at hu ⊢
  obtain ⟨t, hrun⟩ := runSteps_next k s
  have hh := holdsFor_split hu hrun
  obtain ⟨i, l, d, h1, h2⟩ := wait_part k hs (by omega) hh.1
  rw [h1] at hrun
  injection hrun with hrun
  rw [runSteps_add h1, trace_add h1, h2]
  rw [← hrun] at hh
  have h1t : s.tmr - BitVec.ofNat 32 k = 1 := by bv_omega
  obtain ⟨i', l', t', f1, f2, rfl⟩ := wait_expires (by exact hs) (show _ = _ from h1t)
    (holdsFor_head (k := 0) hh.2)
  refine ⟨i', l', ?_, ?_⟩
  · rw [runSteps_succ f1]; rfl
  · rw [trace_succ f1, f2]; rfl

/-- An iteration that is not the last. -/
theorem iterate_step {s : State} (hs : s.seq = .drive) (hr : s.rem ≠ 1) (hu : undisturbed s = true) :
    ∃ i l, ∃ t, step s = .next t ∧ stepEvents s t = [.write (tableRead s.ct s.phase)] ∧ t = { s with
      out := tableRead s.ct s.phase, phase := s.phase + delta s.dir, rem := s.rem - 1, tmr := s.cfgInterval
      seq := .wait, done := false, inputs := i, later := l } := by
  obtain ⟨ha, hw, -⟩ := (undisturbed_iff s).mp hu
  have hst := step_of_drive ha hs
  rw [iterate_more (s := startTick s) (hw hs) hr] at hst
  obtain ⟨i, l, he⟩ := nextInputs_eq { startTick s with
    out := tableRead (startTick s).ct (startTick s).phase, phase := (startTick s).phase + delta (startTick s).dir
    rem := (startTick s).rem - 1, tmr := (startTick s).cfgInterval, seq := .wait }
  rw [he] at hst
  refine ⟨i, l, _, hst, ?_, rfl⟩
  simp [stepEvents, outputEvents, ha, hs, hw hs, startTick]

/-- The last iteration, which completes the command. -/
theorem finish_step {s : State} (hs : s.seq = .drive) (hr : s.rem = 1) (hu : undisturbed s = true) :
    ∃ i l, ∃ t, step s = .next t ∧ stepEvents s t = [.write (tableRead s.ct s.phase), .completed 0] ∧
      t = { s with
        out := tableRead s.ct s.phase, phase := s.phase + delta s.dir, rem := 0, status := 0, seq := .idle
        done := true, inputs := i, later := l } := by
  obtain ⟨ha, hw, -⟩ := (undisturbed_iff s).mp hu
  have hst := step_of_drive ha hs
  rw [iterate_last (s := startTick s) (hw hs) hr] at hst
  obtain ⟨i, l, he⟩ := nextInputs_eq { startTick s with
    out := tableRead (startTick s).ct (startTick s).phase, phase := (startTick s).phase + delta (startTick s).dir
    rem := 0, status := 0, seq := .idle, done := true }
  rw [he] at hst
  refine ⟨i, l, _, hst, ?_, rfl⟩
  simp [stepEvents, outputEvents, ha, hs, hw hs]

/-- An iteration that is not the last, with its wait. -/
theorem iterate_and_wait {s : State} (hs : s.seq = .drive) (hr : s.rem ≠ 1) (hT : s.cfgInterval ≠ 0)
    (hu : holdsFor undisturbed (1 + s.cfgInterval.toNat) s = true) :
    ∃ i l, runSteps (1 + s.cfgInterval.toNat) s = .next { s with
        out := tableRead s.ct s.phase, phase := s.phase + delta s.dir, rem := s.rem - 1, tmr := 0, seq := .drive
        done := false, inputs := i, later := l } ∧
      trace (1 + s.cfgInterval.toNat) s = [.write (tableRead s.ct s.phase), .waited] := by
  rw [Nat.add_comm] at hu ⊢
  obtain ⟨i, l, t, hst, hev, rfl⟩ := iterate_step hs hr (holdsFor_head hu)
  obtain ⟨i', l', h1, h2⟩ := wait_whole rfl hT (holdsFor_tail hu hst)
  refine ⟨i', l', ?_, ?_⟩
  · rw [runSteps_succ hst]; exact h1
  · rw [trace_succ hst, hev]
    exact congrArg _ h2

/-- `k` iterations, each with its wait, when more are to come. -/
theorem iterate_many {s : State} (k : Nat) (hs : s.seq = .drive) (hk : k + 1 ≤ s.rem.toNat) (hT : s.cfgInterval ≠ 0)
    (hu : holdsFor undisturbed (k * (1 + s.cfgInterval.toNat)) s = true) :
    ∃ i l t d o, runSteps (k * (1 + s.cfgInterval.toNat)) s = .next { s with
        out := o, phase := s.phase + delta s.dir * BitVec.ofNat 3 k, rem := s.rem - BitVec.ofNat 32 k, tmr := t
        done := d, inputs := i, later := l } ∧
      (1 ≤ k → o = entryFrom s.ct s.phase s.dir (k - 1) ∧ t = 0 ∧ d = false) ∧
      (k = 0 → o = s.out ∧ t = s.tmr) ∧
      trace (k * (1 + s.cfgInterval.toNat)) s =
        (List.range k).flatMap (fun j => [.write (entryFrom s.ct s.phase s.dir j), .waited]) := by
  induction k generalizing s with
  | zero => exact ⟨s.inputs, s.later, s.tmr, s.done, s.out, by simp [runSteps], by simp, by simp, by simp [trace]⟩
  | succ k ih =>
    rw [Nat.succ_mul, Nat.add_comm] at hu ⊢
    obtain ⟨t, hrun⟩ := runSteps_next (1 + s.cfgInterval.toNat) s
    have hh := holdsFor_split hu hrun
    obtain ⟨i, l, h1, h2⟩ := iterate_and_wait hs (by rintro h; rw [h] at hk; simp at hk) hT hh.1
    rw [h1] at hrun; injection hrun with hrun
    rw [← hrun] at hh
    have hsub : (s.rem - 1).toNat = s.rem.toNat - 1 := by bv_omega
    obtain ⟨i', l', t', d', o', g1, g2, g3, g4⟩ := ih (s := { s with
      out := tableRead s.ct s.phase, phase := s.phase + delta s.dir, rem := s.rem - 1, tmr := 0, seq := .drive
      done := false, inputs := i, later := l }) rfl (by show k + 1 ≤ (s.rem - 1).toNat; omega) hT hh.2
    rw [runSteps_add h1, trace_add h1, h2]
    refine ⟨i', l', if k = 0 then 0 else t', d', o', ?_, ?_, by simp, ?_⟩
    · have e1 := delta_succ s.dir k s.phase
      have e2 : s.rem - 1 - BitVec.ofNat 32 k = s.rem - BitVec.ofNat 32 (k + 1) := by bv_omega
      refine Eq.trans g1 ?_
      have : (if k = 0 then 0 else t') = t' := by
        split
        · next h => exact (g3 h).2.symm
        · rfl
      rw [this, ← e1, ← e2, ← hs]
    · intro _
      cases k with
      | zero =>
        have := g3 rfl
        refine ⟨?_, by simp, ?_⟩
        · rw [this.1]; simp [entryFrom]
        · simp [runSteps] at g1; exact g1.2.2.1
      | succ k =>
        have := g2 (by omega)
        refine ⟨?_, by simp [this], this.2.2⟩
        rw [this.1]
        simp only [entryFrom, Nat.add_sub_cancel]
        rw [delta_succ]
    · refine (congrArg _ g4).trans ?_
      rw [List.range_succ_eq_map, List.flatMap_cons, List.flatMap_map]
      simp [entryFrom]
      congr 1
      funext j
      rw [delta_succ]

end Sys2Proof.Machine
end

