-- ==== Sys2Proof/Tests/Slice0.lean ====
section
/-! SUPPORT. Tests: the ill-formed terms the well-formedness check refuses, words of the spec's encodings, single steps of
the vectors of 95_test_vectors.md (each test names its vector, from which its expected values are taken), and for each
obligation with hypotheses a witness that meets them. -/

namespace Sys2Proof.Tests

open Machine

/-! ## The rig -/

/-- `CT_REF` of 95_test_vectors.md, an illustration (93_implementation_defined.md G3). -/
def refTable : Vector Pattern 8 := #v[0x1#4, 0x3#4, 0x2#4, 0x6#4, 0x4#4, 0xC#4, 0x8#4, 0x9#4]

/-- The input levels of the rig: nothing asserted, a command presented if there is one. -/
def quiet : Inputs where
  rst := false
  cfgNOutputs := 4
  cfgIntervalTicks := 3
  cfgSpr := 4096
  present := true
  cancel := false
  wrFail := false

/-- An initialised block with `INTERVAL_TICKS = 3`, in IDLE with no command. -/
def rig : State where
  seq := .idle
  phase := 0
  out := 0
  rem := 0
  dir := false
  tmr := 0
  cfgInterval := 3
  cfgSpr := 4096
  status := 0
  fault := false
  done := false
  ct := refTable
  rstHeld := false
  inputs := quiet
  later := []
  cmds := []
  draws := 7

/-- The rig about to run a DRIVE. -/
def driving : State := { rig with seq := .drive, rem := 2, dir := true }

/-- The rig in a wait. -/
def waiting : State := { rig with seq := .wait, phase := 1, out := 0x1, rem := 1, dir := true, tmr := 3 }

/-- The rig at the release of reset with the configuration inputs `p`. -/
def releasing (p : Inputs) : State := { rig with rstHeld := true, inputs := p }

/-- `f` of the next state. -/
def seen {α : Type} (s : State) (f : State → α) : Option α :=
  match step s with
  | .next t => some (f t)
  | .fault _ => none
  | .refused _ => none

/-- What a vector of part 2 writes of a state, less `DIR`. -/
structure Brief where
  seq : Seq
  phase : Phase
  out : Pattern
  status : Code
  fault : Bool
  deriving DecidableEq, Repr

/-- The brief form of a state. -/
def tuple (s : State) : Brief := ⟨s.seq, s.phase, s.out, s.status, s.fault⟩

/-! ## Well-formedness -/

theorem test_wf_refuses_infinite_degrees : (Instr.rotate 0x7FF0000000000000#64).wf = false := by decide

theorem test_wf_refuses_nan_degrees : (Instr.rotate 0x7FF8000000000000#64).wf = false := by decide

theorem test_wf_refuses_infinite_radians : (Instr.rotateRad 0xFFF0000000000000#64).wf = false := by decide

theorem test_wf_refuses_nan_radians : (Instr.rotateRad 0x7FF8000000000000#64).wf = false := by decide

/-- The largest finite number is well formed. -/
theorem test_wf_accepts_largest : (Instr.rotate 0x7FEFFFFFFFFFFFFF#64).wf = true := by decide

/-! ## Decoding: words of 95_test_vectors.md -/

/-- V13. -/
theorem test_decode_stop : decode 0x00FFFFFFFFFFFFFFFF#72 = .instr .stop := by decide

/-- V17. -/
theorem test_decode_step_cw : decode 0x010000000100000003#72 = .instr (.step 3 true) := by decide

/-- V20. -/
theorem test_decode_step_ccw : decode 0x010000000000000010#72 = .instr (.step 16 false) := by decide

/-- V22, the largest count. -/
theorem test_decode_step_largest : decode 0x0100000001FFFFFFFF#72 = .instr (.step 4294967295 true) := by decide

/-- V29: the operand of -180. -/
theorem test_decode_rotate : decode 0x02C066800000000000#72 = .instr (.rotate 0xC066800000000000#64) := by decide

/-- V54: the operand PI. -/
theorem test_decode_rotate_rad : decode 0x03400921FB54442D18#72 = .instr (.rotateRad 0x400921FB54442D18#64) := by
  decide

/-- V75 and V76. -/
theorem test_decode_unassigned :
    decode 0x040000000000000000#72 = .illegal .opcode ∧ decode 0xFF0000000000000000#72 = .illegal .opcode := by decide

/-- V77 and V78. -/
theorem test_decode_reserved :
    decode 0x010000000200000001#72 = .illegal .reservedBits ∧
      decode 0x018000000000000001#72 = .illegal .reservedBits := by decide

/-- V47 and V59. -/
theorem test_decode_not_finite :
    decode 0x027FF0000000000000#72 = .illegal .notFinite ∧ decode 0x02FFF0000000000000#72 = .illegal .notFinite ∧
      decode 0x037FF8000000000000#72 = .illegal .notFinite := by decide

/-- V14, encoded. -/
theorem test_encode_step : encode (.step 1 true) = 0x010000000100000001#72 := by decide

/-- V29, as the host's question about the table. -/
theorem test_decode_table_word :
    decodeTableWord 72 0x02C066800000000000 = some (.rotate 0xC066800000000000#64) ∧
      decodeTableWord 72 0x040000000000000000 = none := by decide

/-- A word placed for the first step after reset is the one that step runs. -/
theorem test_with_fetch_word :
    seen (State.reset.withFetchWord 72 0x010000000100000003) (fun t => (t.seq, t.rem, t.dir)) =
      some (.drive, 3, true) := by decide

/-! ## STOP -/

/-- V10. -/
theorem test_stop :
    seen { rig with phase := 5, out := 0x4, dir := true, cmds := [0x000000000000000000#72] }
      (fun t => (tuple t, t.dir, t.done)) = some (⟨.idle, 5, 0, 0, false⟩, true, true) := by decide

/-- V13a: `FAULT` stays. -/
theorem test_stop_keeps_fault :
    seen { rig with phase := 5, status := 2, fault := true, cmds := [0x000000000000000000#72] } tuple =
      some ⟨.idle, 5, 0, 0, true⟩ := by decide

/-! ## STEP -/

/-- V27, row 0. -/
theorem test_step_accepted :
    seen { rig with cmds := [0x010000000100000002#72] } (fun t => (t.seq, t.phase, t.rem, t.dir, t.done)) =
      some (.drive, 0, 2, true, false) := by decide

/-- V16: `DIR` is not written. -/
theorem test_step_zero :
    seen { rig with phase := 3, out := 0x2, cmds := [0x010000000100000000#72] } (fun t => (tuple t, t.dir, t.done)) =
      some (⟨.idle, 3, 0x2, 0, false⟩, false, true) := by decide

/-- V27, row 1. -/
theorem test_iteration :
    seen driving (fun t => (tuple t, t.rem, t.tmr)) = some (⟨.wait, 1, 0x1, 0, false⟩, 1, 3) := by decide

/-- V15: the last iteration, and the decrement wraps from 0 to 7. -/
theorem test_last_iteration :
    seen { driving with rem := 1, dir := false } (fun t => (tuple t, t.done)) = some (⟨.idle, 7, 0x1, 0, false⟩, true) := by
  decide

/-- V27, rows 2 and 4. -/
theorem test_wait :
    seen waiting (fun t => (tuple t, t.tmr)) = some (⟨.wait, 1, 0x1, 0, false⟩, 2) ∧
      seen { waiting with tmr := 1 } (fun t => (tuple t, t.tmr)) = some (⟨.drive, 1, 0x1, 0, false⟩, 0) := by decide

/-! ## ROTATE -/

/-- V35: a tie goes to the even 2. -/
theorem test_rotate_tie :
    seen { rig with cmds := [0x023FC0E00000000000#72] } (fun t => (t.seq, t.rem, t.dir)) = some (.drive, 2, true) := by
  decide +kernel

/-- V46: a count of 2^32 is refused. -/
theorem test_rotate_refused :
    seen { rig with cmds := [0x0241B6800000000000#72] } tuple = some ⟨.idle, 0, 0, 4, true⟩ := by decide +kernel

/-- V44 and V45: the exact arithmetic next to a tie, and the largest count that fits. -/
theorem test_steps_exact :
    steps 0x3FECCCCCCCCCCCCD#64 200 = 1 ∧ steps 0x41B67FFFFFE66666#64 4096 = 4294967295 := by decide +kernel

/-! ## ROTATE_RAD -/

/-- V55. -/
theorem test_rotate_rad :
    seen { rig with cmds := [0x03BFF921FB54442D18#72] } (fun t => (t.seq, t.rem, t.dir)) = some (.drive, 1024, false) := by
  decide +kernel

/-- V58. -/
theorem test_rotate_rad_refused :
    seen { rig with cmds := [0x037FE1CCF385EBC8A0#72] } tuple = some ⟨.idle, 0, 0, 4, true⟩ := by decide +kernel

/-- V49, V50, V52. -/
theorem test_rad2deg :
    times180 0x400921FB54442D18#64 = 0x4081ABE4B73FEFB5#64 ∧ rad2deg 0xBFF921FB54442D18#64 = 0xC056800000000000#64 ∧
      rad2deg 0x3FF0000000000000#64 = 0x404CA5DC1A63C1F8#64 := by decide +kernel

/-- The least subnormal (V40), and the overflow threshold of binary64. -/
theorem test_nearest_angle :
    nearestAngle false 1 (1 <<< 1074) = 0x0000000000000001#64 ∧
      nearestAngle false ((1 <<< 1024) - (1 <<< 970)) 1 = 0x7FF0000000000000#64 ∧
      nearestAngle false ((1 <<< 1024) - (1 <<< 970) - 1) 1 = 0x7FEFFFFFFFFFFFFF#64 := by decide +kernel

/-! ## INIT, errors and acceptance -/

/-- V1. -/
theorem test_init : seen (releasing quiet) (fun t => (t.seq, t.phase, t.status, t.fault, t.cfgSpr)) =
    some (.idle, 0, 0, false, 4096) := by decide

/-- V1, V6 and V8 with the `TICK` of those vectors, 1 microsecond; and 2 ms at a `TICK` of 3/2 ms. -/
theorem test_interval_ticks :
    Config.ceilTicks 1000 1 2000000 = 2000 ∧ Config.ceilTicks 1000 1 (-1000000) = 0 ∧
      Config.ceilTicks 1000 1 100 = 1 ∧ Config.ceilTicks 3000000 2 2000000 = 2 := by decide

/-- V3, V5, V7. -/
theorem test_init_fails :
    seen (releasing { quiet with cfgNOutputs := 5 }) (fun t => (t.seq, t.status, t.fault)) = some (.failed, 1, true) ∧
      seen (releasing { quiet with cfgIntervalTicks := 0 }) (fun t => t.seq) = some .failed ∧
      seen (releasing { quiet with cfgSpr := 0 }) (fun t => t.seq) = some .failed := by decide

/-- 60_exceptions.md R97: a failed INIT keeps the configuration. -/
theorem test_init_failure_keeps_configuration :
    seen (releasing { quiet with cfgNOutputs := 3, cfgSpr := 200 }) (fun t => (t.seq, t.cfgInterval, t.cfgSpr)) =
      some (.failed, 3, 4096) := by decide

/-- V65: cancellation wins over expiry. -/
theorem test_cancel_wins :
    seen { waiting with tmr := 1, inputs := { quiet with cancel := true } } tuple = some ⟨.idle, 1, 0, 2, true⟩ := by
  decide

/-- V72, less the mixture: `PHASE` does not advance. -/
theorem test_write_fails :
    seen { driving with phase := 3, inputs := { quiet with wrFail := true } }
      (fun t => (t.seq, t.phase, t.status, t.fault)) = some (.idle, 3, 3, true) := by decide

/-- 60_exceptions.md R87: a bit of `keep` that is 1 leaves the old value. -/
theorem test_mixture : mixPattern 0b1010#4 0b1100#4 0b0110#4 = 0b1100#4 := by decide

/-- V75. -/
theorem test_illegal_word :
    seen { rig with phase := 3, out := 0x2, dir := true, cmds := [0x040000000000000000#72] }
      (fun t => (tuple t, t.dir)) = some (⟨.idle, 3, 0x2, 4, true⟩, true) := by decide

/-- V80: a word presented while a STEP runs waits. -/
theorem test_command_waits :
    seen { waiting with cmds := [0x000000000000000000#72] } (fun t => (t.seq, t.out, t.cmds.length)) =
      some (.wait, 0x1, 1) := by decide

/-- The levels of the next step come from the list; the last ones hold. -/
theorem test_next_inputs :
    seen { rig with later := [{ quiet with cancel := true }] } (fun t => (t.inputs.cancel, t.later.length)) =
      some (true, 0) ∧ seen rig (fun t => t.inputs.present) = some true := by decide

/-! ## Witnesses: states and operands that meet the hypotheses of the obligations -/

theorem witness_ResetHoldsThenInitialises :
    { rig with inputs := { quiet with rst := true } }.inputs.rst = true ∧
      (releasing quiet).inputs.rst = false ∧ (releasing quiet).rstHeld = true := by decide

theorem witness_GoodConfigurationInitialises :
    (releasing quiet).inputs.rst = false ∧ (releasing quiet).rstHeld = true ∧
      (releasing quiet).inputs.cfgNOutputs = 4 ∧ (releasing quiet).inputs.cfgIntervalTicks ≠ 0 ∧
      (releasing quiet).inputs.cfgSpr ≠ 0 := by decide

theorem witness_ConfigErrorExactlyOnAFailedCheck :
    (releasing { quiet with cfgNOutputs := 3 }).inputs.rst = false ∧
      (releasing { quiet with cfgNOutputs := 3 }).rstHeld = true := by decide

/-- The three checks, and a block in FAILED. -/
theorem witness_FailedInitIsForGood :
    (releasing { quiet with cfgNOutputs := 5 }).inputs.cfgNOutputs ≠ 4 ∧
      (releasing { quiet with cfgIntervalTicks := 0 }).inputs.cfgIntervalTicks = 0 ∧
      (releasing { quiet with cfgSpr := 0 }).inputs.cfgSpr = 0 ∧
      (releasing { quiet with cfgSpr := 0 }).inputs.rst = false ∧ (releasing { quiet with cfgSpr := 0 }).rstHeld = true ∧
      { rig with seq := .failed }.seq = .failed ∧ active { rig with seq := .failed } = true := by decide

theorem witness_StopForcesOutputsLow : rig.seq = .idle := by decide

theorem witness_StopIsIdempotent :
    active { waiting with inputs := { quiet with cancel := true } } = true ∧
      { waiting with inputs := { quiet with cancel := true } }.seq = .wait ∧
      { waiting with inputs := { quiet with cancel := true } }.inputs.cancel = true := by decide

/-- The least and the largest count that start a loop, and 0. -/
theorem witness_StepAcceptanceStartsTheLoop :
    rig.seq = .idle ∧ (1 : Count) ≠ 0 ∧ (4294967295 : Count) ≠ 0 ∧ (0 : Count) = 0 := by decide

theorem witness_StepOfZeroOnlyReportsSuccess : { rig with out := 0x2 }.seq = .idle := by decide

/-- An iteration with more to come, the last one, and a failing one. -/
theorem witness_IterationWritesThenAdvances :
    active driving = true ∧ driving.seq = .drive ∧ driving.inputs.wrFail = false ∧ driving.rem ≠ 1 ∧
      { driving with rem := 1 }.rem = 1 ∧ active { driving with rem := 1 } = true ∧
      active { driving with inputs := { quiet with wrFail := true } } = true ∧
      { driving with inputs := { quiet with wrFail := true } }.seq = .drive := by decide

/-- At the two ends of the range of `PHASE`. -/
theorem witness_PhaseAdvancesModuloEight :
    active { driving with phase := 7 } = true ∧ { driving with phase := 7 }.seq = .drive ∧
      { driving with phase := 7 }.inputs.wrFail = false ∧ active { driving with dir := false } = true := by decide

/-- `TMR` at 1, at 2, and a cancellation. -/
theorem witness_WaitTickCountsDown :
    active waiting = true ∧ waiting.seq = .wait ∧ waiting.inputs.cancel = false ∧ { waiting with tmr := 1 }.tmr = 1 ∧
      { waiting with tmr := 2 }.tmr ≠ 1 ∧ active { waiting with inputs := { quiet with cancel := true } } = true ∧
      { waiting with inputs := { quiet with cancel := true } }.inputs.cancel = true := by decide

/-- The middle of a wait and the end of it. -/
theorem witness_WaitLastsExactlyTheInterval :
    waiting.seq = .wait ∧ waiting.tmr ≠ 0 ∧ 2 ≤ waiting.tmr.toNat ∧ 3 ≤ waiting.tmr.toNat ∧
      holdsFor undisturbed 2 waiting = true ∧ holdsFor undisturbed 3 waiting = true := by decide

/-- The rig with `STEP 2, CW` on the port. -/
def twoSteps : State := { rig with cmds := [0x010000000100000002#72] }

/-- `twoSteps` with `cancel` raised before the tick of the wait after `i` whole ticks. -/
def cancelledAfter (i : Nat) : State :=
  { twoSteps with later := List.replicate (1 + i) quiet ++ [{ quiet with cancel := true }] }

/-- Cancelled in the first wait, on its first tick and on its last. -/
theorem witness_CancellationForcesOutputsLow :
    fetch (cancelledAfter 0) = some 0x010000000100000002#72 ∧
      decode 0x010000000100000002#72 = .instr (.step 2 true) ∧
      holdsFor undisturbed (1 + 1 + (1 - 1) * 3 + 0) (cancelledAfter 0) = true ∧
      (match runSteps (1 + 1 + (1 - 1) * 3 + 0) (cancelledAfter 0) with
        | .next t => active t && t.inputs.cancel
        | .fault _ => false
        | .refused _ => false) = true ∧
      holdsFor undisturbed (1 + 1 + (1 - 1) * 3 + 2) (cancelledAfter 2) = true ∧
      (match runSteps (1 + 1 + (1 - 1) * 3 + 2) (cancelledAfter 2) with
        | .next t => active t && t.inputs.cancel
        | .fault _ => false
        | .refused _ => false) = true := by decide

/-- `twoSteps` with the write of the `j`-th iteration failing. -/
def failingAt (j : Nat) : State :=
  { twoSteps with later := List.replicate (j - 1 + (j - 1) * 3) quiet ++ [{ quiet with wrFail := true }] }

/-- The first write and the last one. -/
theorem witness_FailedWriteLeavesAMixture :
    fetch (failingAt 1) = some 0x010000000100000002#72 ∧ (failingAt 1).cfgInterval ≠ 0 ∧
      holdsFor undisturbed (1 + (1 - 1) * 3) (failingAt 1) = true ∧
      (match runSteps (1 + (1 - 1) * 3) (failingAt 1) with
        | .next t => active t && t.inputs.wrFail
        | .fault _ => false
        | .refused _ => false) = true ∧
      holdsFor undisturbed (2 + (2 - 1) * 3) (failingAt 2) = true ∧
      (match runSteps (2 + (2 - 1) * 3) (failingAt 2) with
        | .next t => active t && t.inputs.wrFail
        | .fault _ => false
        | .refused _ => false) = true := by decide

/-- A wait; and DRIVE, IDLE, FAILED and reset. -/
theorem witness_CancelIsLookedAtOnlyInWait :
    (active { waiting with inputs := { quiet with cancel := true } } = true ∧
      { waiting with inputs := { quiet with cancel := true } }.seq = .wait) ∧
      ¬(active driving = true ∧ driving.seq = .wait) ∧ ¬(active rig = true ∧ rig.seq = .wait) ∧
      ¬(active { rig with seq := .failed } = true ∧ { rig with seq := .failed }.seq = .wait) ∧
      ¬(active { waiting with inputs := { quiet with rst := true } } = true ∧ waiting.seq = .wait) := by decide

/-- A word that decodes to nothing, and a rotation whose count is exactly 2^32 (V46). -/
theorem witness_IllegalWordOnlyReportsBadCommand :
    fetch { rig with cmds := [0xFF0000000000000000#72] } = some 0xFF0000000000000000#72 ∧
      decode 0xFF0000000000000000#72 = .illegal .opcode ∧
      decode 0x0241B6800000000000#72 = .instr (.rotate 0x41B6800000000000#64) ∧
      steps 0x41B6800000000000#64 rig.cfgSpr = 2 ^ 32 ∧
      decode 0x037FE1CCF385EBC8A0#72 = .instr (.rotateRad 0x7FE1CCF385EBC8A0#64) ∧
      isFinite (rad2deg 0x7FE1CCF385EBC8A0#64) = false := by decide +kernel

/-- V46, V47, V53b. -/
theorem witness_UnfitRotationIsRefused :
    rig.seq = .idle ∧ isFinite 0x7FF0000000000000#64 = false ∧ 2 ^ 32 ≤ steps 0x41B6800000000000#64 rig.cfgSpr ∧
      isFinite (rad2deg 0x7FE1CCF385EBC8A0#64) = false := by decide +kernel

/-- Each of the three errors a command can end in, and the three checks of INIT. -/
theorem witness_ErrorsKeepTableConfigurationAndPhase :
    active { waiting with inputs := { quiet with cancel := true } } = true ∧
      seen { waiting with inputs := { quiet with cancel := true } } (fun t => (t.done, t.status)) = some (true, 2) ∧
      active { driving with inputs := { quiet with wrFail := true } } = true ∧
      seen { driving with inputs := { quiet with wrFail := true } } (fun t => (t.done, t.status)) = some (true, 3) ∧
      active { rig with cmds := [0xFF0000000000000000#72] } = true ∧
      seen { rig with cmds := [0xFF0000000000000000#72] } (fun t => (t.done, t.status)) = some (true, 4) ∧
      (releasing { quiet with cfgNOutputs := 5 }).inputs.rst = false ∧
      (releasing { quiet with cfgNOutputs := 5 }).rstHeld = true ∧
      (releasing { quiet with cfgNOutputs := 5 }).inputs.cfgNOutputs ≠ 4 ∧
      (releasing { quiet with cfgIntervalTicks := 0 }).inputs.cfgIntervalTicks = 0 ∧
      (releasing { quiet with cfgSpr := 0 }).inputs.cfgSpr = 0 := by decide

theorem witness_FaultIsSticky :
    active driving = true ∧ { rig with inputs := { quiet with rst := true } }.inputs.rst = true ∧
      (releasing { quiet with cfgSpr := 0 }).inputs.rst = false ∧ (releasing { quiet with cfgSpr := 0 }).rstHeld = true ∧
      (releasing quiet).rstHeld = true := by decide

theorem witness_DonePulsesExactlyOnCompletion : active { rig with cmds := [0#72] } = true := by decide

/-- A zero, the least subnormal, a normal and the largest finite number; and an infinity. -/
theorem witness_OperandsAreReadExactly :
    isFinite 0x8000000000000000#64 = true ∧ isFinite 0x0000000000000001#64 = true ∧
      isFinite 0x3FF0000000000000#64 = true ∧ isFinite 0x7FEFFFFFFFFFFFFF#64 = true ∧
      (0x7FF0000000000000#64).toNat / 2 ^ 52 % 2 ^ 11 = 2047 := by decide

theorem witness_RoundIsNearestTiesToEven : (2 : Nat) ≠ 0 := by decide

theorem witness_StepCountIsTheRoundedShareOfATurn : isFinite 0x3FA6800000000000#64 = true := by decide

/-- A positive angle, both zeros, and an angle of 0 steps (V34). -/
theorem witness_DirectionIsClockwiseExactlyForPositiveAngles :
    isFinite 0x3FF0000000000000#64 = true ∧ isFinite 0x0000000000000000#64 = true ∧
      isFinite 0x8000000000000000#64 = true ∧ rig.seq = .idle ∧ steps 0x3FA6800000000000#64 rig.cfgSpr = 0 := by
  decide +kernel

/-- A count of 0 (V34), of 1 (V37), the largest (V45), and one that does not fit (V46). -/
theorem witness_RotateIsItsStep :
    rig.seq = .idle ∧ isFinite 0x3FA6800000000000#64 = true ∧ steps 0x3FA6800000000000#64 rig.cfgSpr = 0 ∧
      steps 0x3FB6800000000000#64 rig.cfgSpr ≠ 0 ∧ steps 0x41B67FFFFFE66666#64 rig.cfgSpr < 2 ^ 32 ∧
      2 ^ 32 ≤ steps 0x41B6800000000000#64 rig.cfgSpr := by decide +kernel

/-- No degrees (V53b), 0 steps (V56), and a loop (V55). -/
theorem witness_RotateRadIsRotateOfItsDegrees :
    rig.seq = .idle ∧ isFinite 0x7FE1CCF385EBC8A0#64 = true ∧ isFinite (rad2deg 0x7FE1CCF385EBC8A0#64) = false ∧
      isFinite 0x0000000000000000#64 = true ∧ isFinite (rad2deg 0x0000000000000000#64) = true ∧
      steps (rad2deg 0x0000000000000000#64) rig.cfgSpr = 0 ∧ isFinite (rad2deg 0xBFF921FB54442D18#64) = true ∧
      steps (rad2deg 0xBFF921FB54442D18#64) rig.cfgSpr = 1024 := by decide +kernel

theorem witness_RadToDegNamedProperties : isFinite 0x3FF0000000000000#64 = true := by decide

theorem witness_BinaryRoundingIsToNearest : (1 : Nat) ≠ 0 := by decide

/-- One whose `t` is finite (V52) and one whose `t` is not (V53b). -/
theorem witness_RadToDegIsTimes180ThenOverPi :
    isFinite 0x3FF0000000000000#64 = true ∧ isFinite (times180 0x3FF0000000000000#64) = true ∧
      isFinite 0x7FE1CCF385EBC8A0#64 = true ∧ isFinite (times180 0x7FE1CCF385EBC8A0#64) = false := by decide +kernel

theorem witness_SourceRotationExamples : rig.seq = .idle ∧ rig.cfgSpr = 4096 := by decide

/-- One instruction of each kind, at the ends of the ranges of its operands. -/
theorem witness_DecodeOfEncode :
    Instr.wf .stop = true ∧ (Instr.step 0 false).wf = true ∧ (Instr.step 4294967295 true).wf = true ∧
      (Instr.rotate 0x7FEFFFFFFFFFFFFF#64).wf = true ∧ (Instr.rotateRad 0xFFEFFFFFFFFFFFFF#64).wf = true := by decide

theorem witness_EveryDecodedWordIsItsEncoding :
    decode 0x00FFFFFFFFFFFFFFFF#72 = .instr .stop ∧ decode 0x010000000100000001#72 = .instr (.step 1 true) := by decide

theorem witness_StepRunsTheDecodedInstruction :
    active twoSteps = true ∧ twoSteps.seq = .idle ∧ twoSteps.inputs.present = true ∧
      twoSteps.cmds = [0x010000000100000002#72] ∧ decode 0x010000000100000002#72 = .instr (.step 2 true) ∧
      fetch twoSteps = some 0x010000000100000002#72 ∧
      fetch { rig with cmds := [0xFF0000000000000000#72] } = some 0xFF0000000000000000#72 := by decide

/-- No command to present, and a command not presented. -/
theorem witness_IdleWithoutACommandKeepsEverything :
    active rig = true ∧ rig.seq = .idle ∧ rig.cmds = [] ∧
      active { twoSteps with inputs := { quiet with present := false } } = true ∧
      { twoSteps with inputs := { quiet with present := false } }.inputs.present = false := by decide

theorem witness_CommandsWaitUnlessIdle :
    driving.seq ≠ .idle ∧ waiting.seq ≠ .idle ∧ { rig with seq := .failed }.seq ≠ .idle := by decide

/-- Every arc: IDLE with and without a command, DRIVE at 1 and at 2, WAIT at 1 and at 3, FAILED. -/
theorem witness_SequencerHasOnlyTheListedArcs :
    active rig = true ∧ active twoSteps = true ∧ active { driving with rem := 1 } = true ∧ active driving = true ∧
      active { waiting with tmr := 1 } = true ∧ active waiting = true ∧ active { rig with seq := .failed } = true := by
  decide

theorem witness_PhaseIsWrittenOnlyByIterations :
    active driving = true ∧ seen driving (fun t => decide (t.phase ≠ driving.phase)) = some true := by decide

/-- An iteration, a cancellation, a STOP. -/
theorem witness_OutputsAreWrittenOnlyByIterationsAndOff :
    active driving = true ∧ seen driving (fun t => decide (t.out ≠ driving.out)) = some true ∧
      active { waiting with inputs := { quiet with cancel := true } } = true ∧
      seen { waiting with inputs := { quiet with cancel := true } } (fun t => decide (t.out ≠ waiting.out)) = some true ∧
      active { rig with out := 0x2, cmds := [0#72] } = true ∧
      seen { rig with out := 0x2, cmds := [0#72] } (fun t => decide (t.out ≠ 0x2)) = some true := by decide

/-- A block out of reset, and a failed INIT. -/
theorem witness_TableAndConfigurationAreFixed :
    (∃ t, step rig = .next t) ∧ ¬(rig.inputs.rst = false ∧ rig.rstHeld = true ∧ initOk rig.inputs = true) ∧
      initOk { quiet with cfgSpr := 0 } = false := ⟨⟨_, rfl⟩, by decide, by decide⟩

theorem waiting_inv : Inv waiting := ⟨by decide, by decide, by decide, by decide, by decide, by decide⟩

theorem driving_inv : Inv driving := ⟨by decide, by decide, by decide, by decide, by decide, by decide⟩

theorem witness_RegisterInvariantsAreKept : Inv waiting ∧ ∃ t, step waiting = .next t := ⟨waiting_inv, ⟨_, rfl⟩⟩

/-- The rig after a `STEP 1, CW` from phase 0. -/
def stepped : State := { rig with phase := 1, out := 0x1, dir := true }

/-- What has happened to it. -/
def steppedHistory : History := { writer := .iteration true, fresh := false, clean := true }

theorem stepped_inv : Inv stepped := ⟨by decide, by decide, by decide, by decide, by decide, by decide⟩

theorem stepped_history : HistoryInv steppedHistory stepped :=
  ⟨fun _ => .inr (.inl ⟨0, rfl⟩), fun cw h => by cases cw <;> (simp_all [steppedHistory, stepped]; try rfl),
    fun cw h _ => by cases cw <;> simp_all [steppedHistory, stepped], by decide, by decide, by decide⟩

/-- A run that makes history: the rest of `STEP 2, CW` from its first iteration, the wait and the last iteration. -/
theorem witness_HistoryInvariantsAlongRuns :
    (∃ t, runSteps 5 driving = .next t) ∧ (historyAlong 5 History.start driving).writer = .iteration true :=
  ⟨⟨_, rfl⟩, by decide⟩

theorem witness_HistoryInvariantsAreKept :
    HistoryInv steppedHistory stepped ∧ ∃ t, step stepped = .next t := ⟨stepped_history, ⟨_, rfl⟩⟩

/-- With `STEP 1, CCW` on the port: the step on which the statement fails. -/
theorem witness_BehindPhaseByTheCurrentDirection :
    HistoryInv steppedHistory stepped ∧ Inv stepped ∧ steppedHistory.writer = .iteration true ∧
      stepped.out = tableRead stepped.ct (stepped.phase - delta stepped.dir) ∧
      ∃ t, step stepped = .next t ∧ (steppedHistory.after stepped t).writer = .iteration true :=
  ⟨stepped_history, stepped_inv, rfl, by decide, _, rfl, rfl⟩

/-- Counts of 0 and of 2. -/
theorem witness_WholeStepClosedForm :
    fetch twoSteps = some 0x010000000100000002#72 ∧ decode 0x010000000100000002#72 = .instr (.step 2 true) ∧
      twoSteps.cfgInterval ≠ 0 ∧ holdsFor undisturbed (stepLength 2 3) twoSteps = true ∧
      fetch { rig with cmds := [0x010000000100000000#72] } = some 0x010000000100000000#72 ∧
      decode 0x010000000100000000#72 = .instr (.step 0 true) ∧
      holdsFor undisturbed (stepLength 0 3) { rig with cmds := [0x010000000100000000#72] } = true := by decide

/-- Before the first write and before the last. -/
theorem witness_NoPhaseIsSkipped :
    fetch twoSteps = some 0x010000000100000002#72 ∧ twoSteps.cfgInterval ≠ 0 ∧
      holdsFor undisturbed (1 + 0 + 0 * 3) twoSteps = true ∧ holdsFor undisturbed (1 + 1 + 1 * 3) twoSteps = true := by
  decide

/-- `STEP 1` in the direction `cw` and `STEP 1` in the other on the port. -/
def outAndBack (cw : Bool) : State := { rig with cmds := [encode (.step 1 cw), encode (.step 1 !cw)] }

theorem witness_ReversalEndsOnePositionBehind :
    ∀ cw, (outAndBack cw).seq = .idle ∧ (outAndBack cw).cmds = [encode (.step 1 cw), encode (.step 1 !cw)] ∧
      (1 : Count) ≠ 0 ∧ (outAndBack cw).cfgInterval ≠ 0 ∧
      holdsFor (fun t => undisturbed t && t.inputs.present) (stepLength 1 3 + stepLength 1 3) (outAndBack cw) = true := by
  decide

/-- Three single steps. -/
theorem witness_SingleStepsAddUp :
    holdsFor (fun t => undisturbed t && t.inputs.present) (2 * 3)
      { rig with cmds := List.replicate 3 (encode (.step 1 true)) } = true := by decide

/-- In DRIVE and in WAIT. -/
theorem witness_EveryRunningStepEnds :
    (Inv driving ∧ driving.seq = .drive ∧ neverReset driving = true) ∧
      Inv waiting ∧ waiting.seq = .wait ∧ neverReset waiting = true :=
  ⟨⟨driving_inv, by decide, by decide⟩, waiting_inv, by decide, by decide⟩

end Sys2Proof.Tests
end

section
/-! The number of ticks of an interval is its ceiling over `TICK` (00_scope.md R8, 10_state.md R25), in the rational
numbers in which the rule speaks. -/

namespace Sys2Proof.Config

/-- Scaled by a natural number, an interval may be cut off at 0 before it is compared with a natural bound: this is why
0 ticks reach every interval that is not positive. -/
theorem toNat_mul_le_iff (i : ℤ) (d m : ℕ) : i.toNat * d ≤ m ↔ i * d ≤ (m : ℤ) := by
  have hm : (0 : ℤ) ≤ m := Int.natCast_nonneg m
  have hcut : ((i.toNat * d : ℕ) : ℤ) = max (i * d) 0 := by
    rw [Nat.cast_mul, Int.ofNat_toNat, max_mul_of_nonneg _ _ (Int.natCast_nonneg d), zero_mul]
  rw [← Int.ofNat_le, hcut, max_le_iff, and_iff_left hm]

theorem tick_pos : 0 < (tickNum : ℚ) / tickDen :=
  div_pos (Nat.cast_pos.mpr tickNum_pos) (Nat.cast_pos.mpr tickDen_pos)

/-- `intervalTicks` is the least number of periods `TICK` that reach the interval. -/
theorem intervalTicks_le_iff (i : ℤ) (n : ℕ) :
    intervalTicks i ≤ n ↔ (i : ℚ) ≤ n * ((tickNum : ℚ) / tickDen) := by
  have hden : (0 : ℚ) < tickDen := Nat.cast_pos.mpr tickDen_pos
  calc intervalTicks i ≤ n
      ↔ i.toNat * tickDen ≤ n * tickNum := ceilTicks_le_iff tickNum_pos i n
    _ ↔ i * tickDen ≤ ((n * tickNum : ℕ) : ℤ) := toNat_mul_le_iff i tickDen (n * tickNum)
    _ ↔ (i : ℚ) * tickDen ≤ n * tickNum := by norm_cast
    _ ↔ (i : ℚ) ≤ n * ((tickNum : ℚ) / tickDen) := by rw [← mul_div_assoc, le_div_iff₀ hden]

end Sys2Proof.Config

namespace Sys2Proof

/-- Settles O56: the ceiling law of `ceilTicks` read in the rational numbers, and the default interval that fits the
port. -/
theorem intervalTicksIsTheCeiling : Obligations.IntervalTicksIsTheCeiling :=
  ⟨Config.tick_pos, Config.intervalTicks_le_iff, Config.intervalTicks_pos_iff, Config.intervalTicks_default_toNat⟩

end Sys2Proof
end

section
/-! What every step keeps of the registers and of the history (10_state.md sections 1 to 3, 5 and 7): the invariants of
R31, the sticky flag, and who writes `PHASE`, `OUT`, the table and the configuration. -/

namespace Sys2Proof.Machine

/-! ## The register invariants -/

/-- The register invariants do not speak of the input levels. -/
theorem inv_nextInputs {s : State} (h : Inv s) : Inv (nextInputs s) := by
  obtain ⟨i, l, he⟩ := nextInputs_eq s
  rw [he]
  exact ⟨h.configured, h.drive, h.wait, h.code, h.recorded, h.failed⟩

/-- In IDLE the invariants speak of the configuration and of the code of the last completion alone. -/
theorem inv_of_idle {s : State} (hs : s.seq = .idle) (hcfg : s.cfgInterval ≠ 0 ∧ s.cfgSpr ≠ 0)
    (hcode : s.status.toNat ≤ 4) (hrec : s.status ≠ 0 → s.fault = true) : Inv s where
  configured _ := hcfg
  drive h := by simp [hs] at h
  wait h := by simp [hs] at h
  code := hcode
  recorded := hrec
  failed h := by simp [hs] at h

/-- In FAILED they hold once `ConfigError` is reported. -/
theorem inv_of_failed {s : State} (hs : s.seq = .failed) (hstatus : s.status = 1) (hfault : s.fault = true) : Inv s where
  configured h := absurd hs h
  drive h := by simp [hs] at h
  wait h := by simp [hs] at h
  code := by simp [hstatus]
  recorded _ := hfault
  failed _ := ⟨hstatus, hfault⟩

/-- INIT establishes the register invariants, whether its checks pass or not (70_reset_and_hazards.md R106 to R108). -/
theorem inv_init (p : Inputs) (s : State) : Inv (init p s) := by
  cases h : initOk p with
  | true =>
    obtain ⟨hseq, -, hstatus, -, hint, hspr, -⟩ := init_success h s
    obtain ⟨-, hp⟩ := (initOk_iff p).mp h
    exact inv_of_idle hseq (by rwa [hint, hspr]) (by simp [hstatus]) (by simp [hstatus])
  | false =>
    obtain ⟨hseq, hstatus, hfault, -⟩ := init_failure h s
    exact inv_of_failed hseq hstatus hfault

/-- The errors that end a running STEP keep the register invariants. -/
theorem inv_raise_running {e : ErrorCause} (he : e = .interruptedOperation ∨ e = .pinWriteFailure) {s : State}
    (hcfg : s.cfgInterval ≠ 0 ∧ s.cfgSpr ≠ 0) : Inv (raise e s) := by
  obtain ⟨hseq, -, -, hint, hspr⟩ := raise_running he s
  obtain ⟨hstatus, hfault, -⟩ := raise_report e s
  refine inv_of_idle hseq (by rwa [hint, hspr]) ?_ fun _ => hfault
  rw [hstatus]
  cases e <;> decide

/-- What a step does keeps the register invariants: a completion by its code, the start of a loop and the end of a wait
by the count, an iteration by the count and the interval, a tick by the timer. -/
theorem inv_of_did {s u : State} (h : Inv s) (hu : Did s u) : Inv u := by
  cases hu with
  | held | rested => exact ⟨h.configured, h.drive, h.wait, h.code, h.recorded, h.failed⟩
  | inited => exact inv_init _ _
  | rejected _ hs | refused _ hs => exact inv_of_idle rfl (h.configured (by simp [hs])) (Nat.le_refl 4) fun _ => rfl
  | stopped _ hs | completed _ hs | finished _ hs =>
    exact inv_of_idle rfl (h.configured (by simp [hs])) (Nat.zero_le 4) (absurd rfl)
  | writeFailed _ hs => exact inv_raise_running (.inr rfl) (h.configured (by simp [hs]))
  | cancelled _ hs => exact inv_raise_running (.inl rfl) (h.configured (by simp [hs]))
  | started _ hs _ _ _ hn =>
    have hcfg := h.configured (by simp [hs])
    exact ⟨fun _ => hcfg, fun _ => by bv_omega, nofun, h.code, h.recorded, nofun⟩
  | iterated _ hs _ hr =>
    have hcfg := h.configured (by simp [hs])
    have hrem := h.drive hs
    refine ⟨fun _ => hcfg, nofun, fun _ => ⟨?_, ?_, Nat.le_refl _⟩, h.code, h.recorded, nofun⟩
    · show 1 ≤ (s.rem - 1).toNat
      bv_omega
    · have := hcfg.1
      show 1 ≤ s.cfgInterval.toNat
      bv_omega
  | expired _ hs =>
    have hcfg := h.configured (by simp [hs])
    exact ⟨fun _ => hcfg, fun _ => (h.wait hs).1, nofun, h.code, h.recorded, nofun⟩
  | counted _ hs _ ht =>
    obtain ⟨hrem, hpos, hle⟩ := h.wait hs
    refine ⟨h.configured, h.drive, fun _ => ⟨hrem, ?_, ?_⟩, h.code, h.recorded, h.failed⟩
    · show 1 ≤ (s.tmr - 1).toNat
      bv_omega
    · show (s.tmr - 1).toNat ≤ s.cfgInterval.toNat
      bv_omega

/-! ## Who writes `OUT` and `PHASE` -/

/-- What a step out of reset does to `OUT`, `PHASE` and `DIR`, one case for each way `OUT` is written or kept
(10_state.md R14, R15). -/
inductive LatchStep (s t : State) : Prop where
  | iteration (hs : s.seq = .drive) (hw : s.inputs.wrFail = false) (hout : t.out = tableRead s.ct s.phase)
      (hphase : t.phase = s.phase + delta s.dir) (hdir : t.dir = s.dir)
  | failedDrive (hs : s.seq = .drive) (hw : s.inputs.wrFail = true) (hphase : t.phase = s.phase)
  | cancelled (hs : s.seq = .wait) (hc : s.inputs.cancel = true) (hout : t.out = 0) (hphase : t.phase = s.phase)
  | stopped (hs : s.seq = .idle) (hstop : ∃ w, fetch s = some w ∧ decode w = .instr .stop) (hout : t.out = 0)
      (hphase : t.phase = s.phase)
  /-- `OUT` is kept, and `DIR` as well unless the step starts a loop. -/
  | kept (hs : s.seq ≠ .drive) (hwriter : ∀ before, writerOf before s = before) (hout : t.out = s.out)
      (hphase : t.phase = s.phase) (hdir : t.dir = s.dir ∨ (s.seq = .idle ∧ t.seq = .drive))

theorem stopAccepted_of_fetch {s : State} {w : CmdWord} (hf : fetch s = some w) :
    stopAccepted s = (decode w == .instr .stop) := by
  simp [stopAccepted, hf]

theorem writerOf_idle {s : State} (hs : s.seq = .idle) (before : OutWriter) :
    writerOf before s = if stopAccepted s then .off else before := by
  simp [writerOf, hs]

theorem writerOf_drive {s : State} (hs : s.seq = .drive) (before : OutWriter) :
    writerOf before s = if s.inputs.wrFail then .failedDrive else .iteration s.dir := by
  simp [writerOf, hs]

theorem writerOf_wait {s : State} (hs : s.seq = .wait) (before : OutWriter) :
    writerOf before s = if s.inputs.cancel then .off else before := by
  simp [writerOf, hs]

/-- A word that is not a STOP leaves the writer of `OUT` as it was. -/
theorem writerOf_not_stop {s : State} {w : CmdWord} (hs : s.seq = .idle) (hf : fetch s = some w)
    (hd : decode w ≠ .instr .stop) (before : OutWriter) : writerOf before s = before := by
  rw [writerOf_idle hs, stopAccepted_of_fetch hf, if_neg (by simpa using hd)]

theorem writerOf_rested {s : State} (hs : s.seq = .failed ∨ (s.seq = .idle ∧ fetch s = none)) (before : OutWriter) :
    writerOf before s = before := by
  rcases hs with hs | ⟨hs, hf⟩
  · simp [writerOf, hs]
  · simp [writerOf_idle hs, stopAccepted, hf]

theorem not_held {s : State} (ha : active s = true) : s.inputs.rst ≠ true := by simp [((active_iff s).mp ha).1]

theorem not_releasing {s : State} (ha : active s = true) : s.rstHeld ≠ true := by simp [((active_iff s).mp ha).2]

/-- Every step out of reset is one of these. -/
theorem latchStep_of_step {s t : State} (ha : active s = true) (h : step s = .next t) : LatchStep s t := by
  obtain ⟨u, hu, rfl⟩ := did_of_step h
  cases hu with
  | held hr => exact absurd hr (not_held ha)
  | inited _ hh => exact absurd hh (not_releasing ha)
  | rested _ hs =>
    exact .kept (by rcases hs with hs | ⟨hs, -⟩ <;> simp [hs]) (writerOf_rested hs) (by simp) (by simp) (.inl (by simp))
  | rejected _ hs hf hd =>
    exact .kept (by simp [hs]) (writerOf_not_stop hs hf (by simp [hd])) (by simp) (by simp) (.inl (by simp))
  | stopped _ hs hf hd => exact .stopped hs ⟨_, hf, hd⟩ (by simp) (by simp)
  | completed _ hs hf hd hi | refused _ hs hf hd hi =>
    exact .kept (by simp [hs]) (writerOf_not_stop hs hf (by simp [hd, hi])) (by simp) (by simp) (.inl (by simp))
  | started _ hs hf hd hi =>
    exact .kept (by simp [hs]) (writerOf_not_stop hs hf (by simp [hd, hi])) (by simp) (by simp)
      (.inr ⟨hs, by simp⟩)
  | writeFailed _ hs hw => exact .failedDrive hs hw (by simp [raise_frame])
  | finished _ hs hw | iterated _ hs hw => exact .iteration hs hw (by simp) (by simp) (by simp)
  | cancelled _ hs hc => exact .cancelled hs hc (by simp) (by simp [raise_frame])
  | expired _ hs hc | counted _ hs hc =>
    exact .kept (by simp [hs]) (fun before => by simp [writerOf_wait hs, hc]) (by simp) (by simp) (.inl (by simp))

/-! ## The sticky flag -/

/-- Every error sets the flag by a completion with its code, which is not 0. -/
theorem raise_fault_eq (e : ErrorCause) (s : State) (f : Bool) :
    (raise e s).fault = (f || ((raise e s).done && (raise e s).status != 0)) := by
  obtain ⟨hstatus, hfault, hdone⟩ := raise_report e s
  have hcode : (e.code != 0) = true := by cases e <;> rfl
  rw [hstatus, hfault, hdone, hcode, Bool.and_self, Bool.or_true]

/-- Out of reset the flag is set by a completion with a non-zero code, and otherwise kept. -/
theorem fault_of_step {s t : State} (ha : active s = true) (h : step s = .next t) :
    t.fault = (s.fault || (t.done && t.status != 0)) := by
  obtain ⟨u, hu, rfl⟩ := did_of_step h
  simp only [nextInputs_fault, nextInputs_done, nextInputs_status]
  cases hu with
  | held hr => exact absurd hr (not_held ha)
  | inited _ hh => exact absurd hh (not_releasing ha)
  | writeFailed | cancelled => exact raise_fault_eq _ _ _
  | rejected | refused => simp
  | stopped | completed | finished => simp
  | rested | started | iterated | expired | counted => simp

/-- INIT clears the flag if its checks pass and sets it if not. -/
theorem init_fault (p : Inputs) (s : State) : (init p s).fault = !initOk p := by
  cases h : initOk p with
  | true => simp [(init_success h s).2.2.2.1]
  | false => simp [(init_failure h s).2.2.1]

/-! ## The table and the configuration -/

/-- No step writes the table, and none but a successful INIT the configuration. -/
theorem did_frame {s u : State} (hu : Did s u) :
    u.ct = s.ct ∧
      (¬(s.inputs.rst = false ∧ s.rstHeld = true ∧ initOk s.inputs = true) →
        u.cfgInterval = s.cfgInterval ∧ u.cfgSpr = s.cfgSpr) := by
  cases hu with
  | inited hr hh =>
    refine ⟨(init_frame _ _).1, fun hno => ?_⟩
    have hfail : initOk s.inputs = false := by simpa [hr, hh] using hno
    obtain ⟨hint, hspr, -⟩ := init_failure_frame hfail (releaseReset (startTick s))
    exact ⟨hint, hspr⟩
  | writeFailed | cancelled =>
    obtain ⟨hct, hint, hspr, -⟩ := raise_frame _ (startTick s)
    exact ⟨hct, fun _ => ⟨hint, hspr⟩⟩
  | held | rested | rejected | stopped | completed | refused | started | finished | iterated | expired | counted =>
    exact ⟨rfl, fun _ => ⟨rfl, rfl⟩⟩

theorem step_ct {s t : State} (h : step s = .next t) : t.ct = s.ct := by
  obtain ⟨u, hu, rfl⟩ := did_of_step h
  simp [(did_frame hu).1]

/-! ## The history -/

/-- When nothing has happened since reset, the invariants about the past ask nothing of the registers. -/
theorem historyInv_start (s : State) : HistoryInv History.start s where
  legal h := absurd rfl h
  behind _ := nofun
  direction _ := nofun
  fresh := nofun
  off := nofun
  clean _ := rfl

theorem after_held (h : History) {s : State} (hr : s.inputs.rst = true) (t : State) : h.after s t = h := by
  simp [History.after, hr]

theorem after_release (h : History) {s : State} (hr : s.inputs.rst = false) (hh : s.rstHeld = true) (t : State) :
    h.after s t = History.start := by
  simp [History.after, hr, hh]

theorem after_active (h : History) {s : State} (ha : active s = true) (t : State) :
    h.after s t =
      { writer := writerOf h.writer s
        fresh := if s.seq = .drive then false else h.fresh || (s.seq == .idle && t.seq == .drive)
        clean := h.clean && (!t.done || t.status == 0) } := by
  obtain ⟨hr, hh⟩ := (active_iff s).mp ha
  simp [History.after, hr, hh]

/-- A step in which reset is asserted changes no register that the invariants about the past speak of. -/
theorem historyInv_held {h : History} {s : State} (hi : HistoryInv h s) :
    HistoryInv h (nextInputs (holdReset (startTick s))) := by
  obtain ⟨i, l, he⟩ := nextInputs_eq (holdReset (startTick s))
  rw [he]
  exact ⟨hi.legal, hi.behind, hi.direction, hi.fresh, hi.off, hi.clean⟩

/-- Outside DRIVE a step after which no STEP awaits its first iteration started none. -/
theorem not_fresh_after {h : History} {s t : State} (ha : active s = true) (hs : s.seq ≠ .drive)
    (hf : (h.after s t).fresh = false) : h.fresh = false ∧ ¬(s.seq = .idle ∧ t.seq = .drive) := by
  simpa [after_active h ha, hs] using hf

/-! The invariants about the past from the last writer of `OUT`, for the three writers that leave them anew. -/

section
variable {h : History} {s : State} (hfresh : h.fresh = true → s.seq = .drive)
  (hclean : s.fault = false → h.clean = true)
include hfresh hclean

theorem historyInv_of_iteration {p : Phase} (hwriter : h.writer = .iteration s.dir) (hout : s.out = tableRead s.ct p)
    (hphase : s.phase = p + delta s.dir) : HistoryInv h s where
  legal _ := .inr (.inl ⟨p, hout⟩)
  behind cw hcw := by
    obtain rfl : s.dir = cw := by simpa [hwriter] using hcw
    rw [hout, hphase, BitVec.add_sub_cancel]
  direction cw hcw _ := by simpa [hwriter] using hcw
  fresh := hfresh
  off := by simp [hwriter]
  clean := hclean

theorem historyInv_of_failedDrive (hwriter : h.writer = .failedDrive) : HistoryInv h s where
  legal _ := .inr (.inr hwriter)
  behind := by simp [hwriter]
  direction := by simp [hwriter]
  fresh := hfresh
  off := by simp [hwriter]
  clean := hclean

theorem historyInv_of_off (hwriter : h.writer = .off) (hout : s.out = 0) : HistoryInv h s where
  legal _ := .inl hout
  behind := by simp [hwriter]
  direction := by simp [hwriter]
  fresh := hfresh
  off _ := hout
  clean := hclean

end

section
variable {h : History} {s t : State} (hi : HistoryInv h s) (ha : active s = true) (hst : step s = .next t)
include hi ha

/-- Only the acceptance of a STEP leaves one that awaits its first iteration, and it leaves it in DRIVE. -/
theorem fresh_after (hf : (h.after s t).fresh = true) : t.seq = .drive := by
  rw [after_active h ha] at hf
  by_cases hs : s.seq = .drive
  · simp [hs] at hf
  · have hfresh : h.fresh ≠ true := fun hfr => hs (hi.fresh hfr)
    simp only [hs, hfresh, if_false, Bool.false_or, Bool.and_eq_true, beq_iff_eq] at hf
    exact hf.2

include hst

/-- I6: a completion with a non-zero code sets the flag. -/
theorem clean_after (hf : t.fault = false) : (h.after s t).clean = true := by
  rw [fault_of_step ha hst, Bool.or_eq_false_iff] at hf
  obtain ⟨hfault, hdone⟩ := hf
  simpa [after_active h ha, hi.clean hfault, imp_iff_not_or] using hdone

/-- A step out of reset keeps the invariants about the past, by who wrote `OUT` on it. -/
theorem historyInv_active : HistoryInv (h.after s t) t := by
  have hct := step_ct hst
  have hfresh := fresh_after (t := t) hi ha
  have hclean := clean_after hi ha hst
  have hwriter : (h.after s t).writer = writerOf h.writer s := by rw [after_active h ha]
  cases latchStep_of_step ha hst with
  | iteration hs hw hout hphase hdir =>
    exact historyInv_of_iteration hfresh hclean (by simp [hwriter, writerOf_drive hs, hw, hdir]) (by rw [hout, hct])
      (by rw [hphase, hdir])
  | failedDrive hs hw =>
    exact historyInv_of_failedDrive hfresh hclean (by simp [hwriter, writerOf_drive hs, hw])
  | cancelled hs hc hout =>
    exact historyInv_of_off hfresh hclean (by simp [hwriter, writerOf_wait hs, hc]) hout
  | stopped hs hstop hout =>
    obtain ⟨w, hf, hd⟩ := hstop
    exact historyInv_of_off hfresh hclean
      (by simp [hwriter, writerOf_idle hs, stopAccepted_of_fetch hf, hd]) hout
  | kept hs hkeep hout hphase hdir =>
    rw [hkeep] at hwriter
    refine ⟨?_, ?_, fun cw hcw hf => ?_, hfresh, ?_, hclean⟩
    · rw [hwriter, hout, hct]
      exact hi.legal
    · rw [hwriter, hout, hct, hphase]
      exact hi.behind
    · obtain ⟨hold, hnone⟩ := not_fresh_after ha hs hf
      rw [hwriter] at hcw
      rw [hdir.resolve_right hnone]
      exact hi.direction cw hcw hold
    · rw [hwriter, hout]
      exact hi.off

end

/-- Every step keeps the invariants about the past, reset and its release among them. -/
theorem historyInv_step {h : History} {s t : State} (hi : HistoryInv h s) (hst : step s = .next t) :
    HistoryInv (h.after s t) t := by
  cases hr : s.inputs.rst with
  | true =>
    rw [step_of_reset hr] at hst
    injection hst with hst
    rw [after_held h hr, ← hst]
    exact historyInv_held hi
  | false =>
    cases hh : s.rstHeld with
    | true =>
      rw [after_release h hr hh]
      exact historyInv_start t
    | false => exact historyInv_active hi ((active_iff s).mpr ⟨hr, hh⟩) hst

/-- Along a run the invariants hold with the history it has made so far. -/
theorem historyInv_run (k : Nat) {h : History} {s t : State} (hi : HistoryInv h s) (hrun : runSteps k s = .next t) :
    HistoryInv (historyAlong k h s) t := by
  induction k generalizing h s with
  | zero =>
    injection hrun with hrun
    exact hrun ▸ hi
  | succ k ih =>
    obtain ⟨u, -, hst⟩ := step_did s
    rw [runSteps_succ hst] at hrun
    rw [historyAlong_succ hst]
    exact ih (historyInv_step hi hst) hrun

/-! ## A reversing STEP -/

/-- A block that has made one iteration clockwise from phase 0, with `STEP 1, CCW` on its command port. -/
def reversing : State :=
  { State.reset with
    phase := 1, out := 0x1, dir := true, cfgInterval := 3
    ct := #v[0x1#4, 0x3#4, 0x2#4, 0x6#4, 0x4#4, 0xC#4, 0x8#4, 0x9#4], cmds := [encode (.step 1 false)] }

/-- Its history: that iteration, and no command that failed. -/
def reversingHistory : History := { writer := .iteration true, fresh := false, clean := true }

/-- The acceptance writes `DIR` and neither `PHASE` nor `OUT`. -/
theorem reversing_accepts :
    ∃ t, step reversing = .next t ∧ t.phase = 1 ∧ t.out = 0x1 ∧ t.dir = false := ⟨_, rfl, rfl, rfl, rfl⟩

theorem reversing_inv : Inv reversing := inv_of_idle rfl (by decide) (by decide) (by decide)

theorem reversing_historyInv : HistoryInv reversingHistory reversing :=
  historyInv_of_iteration (p := 0) nofun (fun _ => rfl) rfl rfl rfl

end Sys2Proof.Machine

namespace Sys2Proof

open Machine

/-- Settles O46, by what the step did. -/
theorem registerInvariantsAreKept : Obligations.RegisterInvariantsAreKept := by
  intro s t hinv hst
  obtain ⟨u, hu, rfl⟩ := did_of_step hst
  exact inv_nextInputs (inv_of_did hinv hu)

/-- Settles O48: nothing is past after reset, and a step is in reset, its release, or one of the ways `OUT` is written
or kept. -/
theorem historyInvariantsAreKept : Obligations.HistoryInvariantsAreKept :=
  ⟨historyInv_start State.reset, fun _ _ _ => historyInv_step⟩

/-- Settles O20, with one clause for reset, one for the steps out of reset and one for INIT. -/
theorem faultIsSticky : Obligations.FaultIsSticky := by
  intro s
  refine ⟨fun hr => ⟨_, step_of_reset hr, by simp⟩, fun ha => ?_, fun hr hh => ⟨_, step_of_release hr hh, ?_⟩⟩
  · obtain ⟨u, -, hst⟩ := step_did s
    exact ⟨_, hst, fault_of_step ha hst⟩
  · rw [nextInputs_fault, init_fault]

/-- Settles O41: of the ways a step can write `OUT` and `PHASE`, only an iteration moves `PHASE`. -/
theorem phaseIsWrittenOnlyByIterations : Obligations.PhaseIsWrittenOnlyByIterations := by
  intro s t ha hst hne
  cases latchStep_of_step ha hst with
  | iteration hs hw _ hphase => exact ⟨hs, hw, by rw [hphase, delta_eq]⟩
  | failedDrive _ _ hphase | cancelled _ _ _ hphase | stopped _ _ _ hphase | kept _ _ _ hphase =>
    exact absurd hphase hne

/-- Settles O42, one way of writing `OUT` after the other. -/
theorem outputsAreWrittenOnlyByIterationsAndOff : Obligations.OutputsAreWrittenOnlyByIterationsAndOff := by
  intro s t ha hst hne
  cases latchStep_of_step ha hst with
  | iteration hs _ hout => exact .inl ⟨hs, fun _ => hout⟩
  | failedDrive hs hw => exact .inl ⟨hs, by simp [hw]⟩
  | cancelled hs hc hout => exact .inr (.inl ⟨hs, hc, hout⟩)
  | stopped hs hstop hout => exact .inr (.inr ⟨hs, hstop, hout⟩)
  | kept _ _ hout => exact absurd hout hne

/-- Settles O43, by what the step did. -/
theorem tableAndConfigurationAreFixed : Obligations.TableAndConfigurationAreFixed := by
  intro s t hst
  obtain ⟨u, hu, rfl⟩ := did_of_step hst
  simpa using did_frame hu

/-- Settles O47, by induction on the number of steps: a run starts with nothing past. -/
theorem historyInvariantsAlongRuns : Obligations.HistoryInvariantsAlongRuns :=
  fun k s _ => historyInv_run k (historyInv_start s)

/-- Refutes O49: after the acceptance of a reversing STEP the outputs still show entry 0, one behind `PHASE = 1` in the old
direction, where the new `DIR` asks for entry 2. -/
theorem not_behindPhaseByTheCurrentDirection : ¬ Obligations.BehindPhaseByTheCurrentDirection := by
  intro h
  obtain ⟨t, hst, hphase, hout, hdir⟩ := reversing_accepts
  have hkept := h reversingHistory reversing t true true reversing_historyInv reversing_inv hst rfl rfl rfl
  rw [hout, step_ct hst, hphase, hdir] at hkept
  exact absurd hkept (by decide)

/-- Settles O45: the default interval is a positive number of ticks for every `TICK`. -/
theorem registerInvariantsAtReset : Obligations.RegisterInvariantsAtReset :=
  inv_of_idle rfl ⟨Config.intervalTicks_default_ne_zero, by decide⟩ (Nat.zero_le 4) (absurd rfl)

/-- Settles O55, by the definition of the output ports. -/
theorem portsShowTheirRegisters : Obligations.PortsShowTheirRegisters :=
  fun _ => ⟨by simp [outputs], rfl, rfl, rfl, rfl, rfl⟩

end Sys2Proof
end

section
/-! The command word and its acceptance (30_encoding.md sections 2 to 6): what the decoder makes of each opcode, against
the encoder and against the bits of the word, and the command port. -/

namespace Sys2Proof

open Machine

/-! ## Words and their fields -/

/-- The rows of the opcode map (30_encoding.md R53). -/
theorem opcode_cases (op : BitVec 8) :
    op = 0x00#8 ∨ op = 0x01#8 ∨ op = 0x02#8 ∨ op = 0x03#8 ∨ 4 ≤ op.toNat := by bv_omega

@[simp] theorem opField_encode (i : Instr) : opField (encode i) = i.opcode := opField_append _ _

@[simp] theorem argField_encode (i : Instr) : argField (encode i) = i.operand := argField_append _ _

/-- A word with the two fields of an instruction is its encoding. -/
theorem encode_eq_of_fields {w : CmdWord} {i : Instr} (hop : opField w = i.opcode) (harg : argField w = i.operand) :
    encode i = w := by
  rw [encode, ← hop, ← harg, word_eq_fields]

/-- A slice of a word below bit 64 is that slice of its operand field. -/
theorem argField_slice (w : CmdWord) {start len : Nat} (h : start + len ≤ 64) :
    (argField w).extractLsb' start len = w.extractLsb' start len := by
  rw [argField, BitVec.extractLsb'_extractLsb'_of_le h]

/-- An infinity or a NaN, by the bits of its exponent field (30_encoding.md R52 (c)). -/
theorem isFinite_eq_false_iff_bits (a : Angle) : isFinite a = false ↔ a.extractLsb' 52 11 = 0x7FF#11 := by
  rw [← BitVec.toNat_inj]
  simp [isFinite, expField]

/-- An infinity or a NaN, by the number the operand is read as. -/
theorem isFinite_eq_false_iff (a : Angle) : isFinite a = false ↔ a.toNat / 2 ^ 52 % 2 ^ 11 = 2047 := by
  rw [← expField_eq]
  simp [isFinite]

theorem argCount_toNat (arg : BitVec 64) : (argCount arg).toNat = arg.toNat % 2 ^ 32 := by
  simp [argCount, BitVec.extractLsb'_toNat]

theorem argCw_eq (arg : BitVec 64) : argCw arg = decide (arg.toNat / 2 ^ 32 % 2 = 1) :=
  Nat.testBit_eq_decide_div_mod_eq

/-! ## What each operand field decodes to -/

/-- Each operand field is decoded under one condition: the instruction if it holds, else one reason. -/
theorem ite_eq_instr {c : Prop} [Decidable c] {i j : Instr} {why : Illegal} :
    (if c then Decoded.instr i else .illegal why) = .instr j ↔ c ∧ i = j := by
  split <;> simp [*]

theorem ite_eq_illegal {c : Prop} [Decidable c] {i : Instr} {why reason : Illegal} :
    (if c then Decoded.instr i else .illegal why) = .illegal reason ↔ ¬c ∧ why = reason := by
  split <;> simp [*]

theorem decodeStep_eq_instr {arg : BitVec 64} {i : Instr} :
    decodeStep arg = .instr i ↔ argReserved arg = 0 ∧ .step (argCount arg) (argCw arg) = i := ite_eq_instr

theorem decodeRotate_eq_instr {a : Angle} {i : Instr} :
    decodeRotate a = .instr i ↔ isFinite a = true ∧ .rotate a = i := ite_eq_instr

theorem decodeRotateRad_eq_instr {r : Angle} {i : Instr} :
    decodeRotateRad r = .instr i ↔ isFinite r = true ∧ .rotateRad r = i := ite_eq_instr

theorem decodeStep_eq_illegal {arg : BitVec 64} {why : Illegal} :
    decodeStep arg = .illegal why ↔ argReserved arg ≠ 0 ∧ .reservedBits = why := ite_eq_illegal

theorem decodeRotate_eq_illegal {a : Angle} {why : Illegal} :
    decodeRotate a = .illegal why ↔ isFinite a = false ∧ .notFinite = why := by
  rw [← Bool.not_eq_true]
  exact ite_eq_illegal

theorem decodeRotateRad_eq_illegal {r : Angle} {why : Illegal} :
    decodeRotateRad r = .illegal why ↔ isFinite r = false ∧ .notFinite = why := by
  rw [← Bool.not_eq_true]
  exact ite_eq_illegal

theorem decode_unassigned {w : CmdWord} (h : 4 ≤ (opField w).toNat) : decode w = .illegal .opcode := by
  have hne : ∀ op : BitVec 8, op.toNat < 4 → opField w ≠ op := by
    rintro op hop rfl
    omega
  simp [decode, hne]

end Sys2Proof

namespace Sys2Proof.Machine

/-! ## The list of commands outside IDLE -/

/-- The state with another list of commands on the host's side of the port. -/
def withCmds (other : List CmdWord) (s : State) : State := { s with cmds := other }

@[simp] theorem withCmds_seq (other : List CmdWord) (s : State) : (withCmds other s).seq = s.seq := rfl
@[simp] theorem withCmds_cmds (other : List CmdWord) (s : State) : (withCmds other s).cmds = other := rfl
@[simp] theorem withCmds_rstHeld (other : List CmdWord) (s : State) : (withCmds other s).rstHeld = s.rstHeld := rfl
@[simp] theorem withCmds_inputs (other : List CmdWord) (s : State) : (withCmds other s).inputs = s.inputs := rfl

/-! Each operation of a step without a command commutes with replacing the list: it neither reads nor writes it. -/

section
variable (other : List CmdWord) (s : State)

theorem nextInputs_withCmds : nextInputs (withCmds other s) = withCmds other (nextInputs s) := by
  cases h : s.later with
  | nil => rw [nextInputs_nil h, nextInputs_nil (s := withCmds other s) h]
  | cons p ps =>
    rw [nextInputs_cons h, nextInputs_cons (s := withCmds other s) h]
    rfl

theorem raise_withCmds (e : ErrorCause) : raise e (withCmds other s) = withCmds other (raise e s) := by
  cases e <;> rfl

theorem init_withCmds (p : Inputs) : init p (withCmds other s) = withCmds other (init p s) := by
  cases h : initOk p with
  | true =>
    simp only [init, h, if_true]
    rfl
  | false =>
    simp only [init, h, Bool.false_eq_true, if_false]
    exact raise_withCmds other s .configError

theorem iterate_withCmds : iterate (withCmds other s) = withCmds other (iterate s) := by
  cases hw : s.inputs.wrFail with
  | true => rw [iterate_fails hw, iterate_fails (s := withCmds other s) hw, raise_withCmds]
  | false =>
    by_cases hr : s.rem = 1
    · rw [iterate_last hw hr, iterate_last (s := withCmds other s) hw hr]
      rfl
    · rw [iterate_more hw hr, iterate_more (s := withCmds other s) hw hr]
      rfl

theorem waitTick_withCmds : waitTick (withCmds other s) = withCmds other (waitTick s) := by
  cases hc : s.inputs.cancel with
  | true => rw [waitTick_cancelled hc, waitTick_cancelled (s := withCmds other s) hc, raise_withCmds]
  | false =>
    by_cases ht : s.tmr = 1
    · rw [waitTick_expires hc ht, waitTick_expires (s := withCmds other s) hc ht]
      rfl
    · rw [waitTick_counts hc ht, waitTick_counts (s := withCmds other s) hc ht]
      rfl

theorem seqTick_withCmds : seqTick (withCmds other s) = withCmds other (seqTick s) := by
  cases h : s.seq with
  | failed | idle => simp only [seqTick, withCmds_seq, h]
  | drive => simp only [seqTick, withCmds_seq, h, iterate_withCmds]
  | wait => simp only [seqTick, withCmds_seq, h, waitTick_withCmds]

theorem runTick_withCmds : runTick (withCmds other s) = withCmds other (runTick s) := by
  cases hr : s.inputs.rst with
  | true =>
    simp only [runTick, withCmds_inputs, hr, if_true]
    rfl
  | false =>
    cases hh : s.rstHeld with
    | true =>
      simp only [runTick, withCmds_inputs, withCmds_rstHeld, hr, hh, Bool.false_eq_true, if_false, if_true]
      exact init_withCmds other (releaseReset s) s.inputs
    | false =>
      simp only [runTick, withCmds_inputs, withCmds_rstHeld, hr, hh, Bool.false_eq_true, if_false]
      exact seqTick_withCmds other s

/-- A step without a command keeps the list, since replacing the list by itself changes nothing. -/
theorem runTick_cmds : (runTick s).cmds = s.cmds := by
  have h : runTick s = withCmds s.cmds (runTick s) := runTick_withCmds s.cmds s
  rw [h, withCmds_cmds]

end

end Sys2Proof.Machine

namespace Sys2Proof

open Machine

/-- Settles O32: the decoder reads each field of the encoding as the encoder wrote it. -/
theorem decodeOfEncode : Obligations.DecodeOfEncode := by
  intro i hwf
  cases i with
  | stop => exact decode_stop (opField_encode _)
  | step count cw =>
    obtain ⟨hres, hcount, hcw⟩ := step_operand_fields count cw
    rw [decode_step (opField_encode _), argField_encode]
    exact decodeStep_eq_instr.mpr ⟨hres, by rw [hcount, hcw]⟩
  | rotate a =>
    rw [decode_rotate (opField_encode _), argField_encode]
    exact decodeRotate_eq_instr.mpr ⟨hwf, rfl⟩
  | rotateRad r =>
    rw [decode_rotateRad (opField_encode _), argField_encode]
    exact decodeRotateRad_eq_instr.mpr ⟨hwf, rfl⟩

/-- Settles O22, one clause after the other; the value is the one the rotations compute with. -/
theorem operandsAreReadExactly : Obligations.OperandsAreReadExactly := by
  refine ⟨fun arg => ⟨argCount_toNat arg, argCw_eq arg⟩, isFinite_eq_false_iff, fun arg h => ?_,
    fun a _ => angleValue_eq a, ?_, ?_⟩
  · have hfin := (isFinite_eq_false_iff arg).mpr h
    rw [decode_rotate (opField_append _ _), decode_rotateRad (opField_append _ _), argField_append, argField_append]
    exact ⟨decodeRotate_eq_illegal.mpr ⟨hfin, rfl⟩, decodeRotateRad_eq_illegal.mpr ⟨hfin, rfl⟩⟩
  · exact (angleValue_eq_zero _).mpr (by decide)
  · exact (angleValue_eq_zero _).mpr (by decide)

/-- Settles O33, one opcode after the other: what the word decodes to has its opcode and, but for a STOP, its operand
field. -/
theorem everyDecodedWordIsItsEncoding : Obligations.EveryDecodedWordIsItsEncoding := by
  intro w i hd
  rcases opcode_cases (opField w) with h | h | h | h | h
  · obtain rfl : Instr.stop = i := by simpa [decode_stop h] using hd
    exact ⟨rfl, .inr ⟨rfl, h⟩⟩
  · rw [decode_step h] at hd
    obtain ⟨hres, rfl⟩ := decodeStep_eq_instr.mp hd
    exact ⟨rfl, .inl (encode_eq_of_fields h (operand_of_fields hres).symm)⟩
  · rw [decode_rotate h] at hd
    obtain ⟨hfin, rfl⟩ := decodeRotate_eq_instr.mp hd
    exact ⟨hfin, .inl (encode_eq_of_fields h rfl)⟩
  · rw [decode_rotateRad h] at hd
    obtain ⟨hfin, rfl⟩ := decodeRotateRad_eq_instr.mp hd
    exact ⟨hfin, .inl (encode_eq_of_fields h rfl)⟩
  · simp [decode_unassigned h] at hd

/-- Settles O34, one opcode after the other: the condition of the decoder on the operand field is one on the word's
bits. -/
theorem illegalWordsAreExactlyThese : Obligations.IllegalWordsAreExactlyThese := by
  intro w
  have hres : argReserved (argField w) = w.extractLsb' 33 31 := argField_slice w (by decide)
  have hexp : isFinite (argField w) = false ↔ w.extractLsb' 52 11 = 0x7FF#11 := by
    rw [isFinite_eq_false_iff_bits, argField_slice w (by decide)]
  rw [show w.extractLsb' 64 8 = opField w from rfl]
  rcases opcode_cases (opField w) with h | h | h | h | h
  · simp [decode_stop h, h]
  · simp [decode_step h, decodeStep_eq_illegal, hres, h]
  · simp [decode_rotate h, decodeRotate_eq_illegal, hexp, h]
  · simp [decode_rotateRad h, decodeRotateRad_eq_illegal, hexp, h]
  · simp [decode_unassigned h, h]

/-- Settles O39: outside IDLE nothing is fetched, and a step without a command commutes with replacing the list. -/
theorem commandsWaitUnlessIdle : Obligations.CommandsWaitUnlessIdle := by
  intro s other hs
  refine ⟨_, step_of_no_fetch (fetch_eq_none_of_seq hs), ?_, ?_⟩
  · rw [nextInputs_cmds, runTick_cmds, startTick_cmds]
  · show step (withCmds other s) = .next (withCmds other (nextInputs (runTick (startTick s))))
    rw [step_of_no_fetch (fetch_eq_none_of_seq (s := withCmds other s) hs), ← nextInputs_withCmds, ← runTick_withCmds]
    rfl

/-- Settles O36, by the equation of the step that accepts a word and the condition of acceptance. -/
theorem stepRunsTheDecodedInstruction : Obligations.StepRunsTheDecodedInstruction := by
  refine ⟨fun s w rest i ha hs hp hc hd => ?_, fun _ _ => fetch_eq_some⟩
  have hf : fetch s = some w := fetch_eq_some.mpr ⟨ha, hs, hp, by rw [hc, List.head?_cons]⟩
  have htake : takeCommand (startTick s) = { s with cmds := rest, done := false } := by
    simp [takeCommand, startTick, hc]
  exact ⟨hf, _, exec_eq i _, by rw [step_of_fetch_instr hf hd, htake]⟩

end Sys2Proof
end

section
/-! STOP and STEP (40_step_and_stop.md): what a whole undisturbed STEP leaves and traces, commands issued one after the
other, and the arcs of the sequencer. -/

namespace Sys2Proof.Machine

/-! ## A whole STEP (40_step_and_stop.md R66) -/

@[simp] theorem stepLength_zero (ticks : Nat) : stepLength 0 ticks = 1 := by simp [stepLength]

@[simp] theorem stepLength_one (ticks : Nat) : stepLength 1 ticks = 2 := by simp [stepLength]

/-- What an undisturbed `STEP n, cw` with `n` at least 1 has made of `s` when it completes in `t`. -/
structure Stepped (n : Count) (cw : Bool) (s t : State) : Prop where
  seq : t.seq = .idle
  phase : t.phase = s.phase + delta cw * BitVec.ofNat 3 n.toNat
  out : t.out = entryFrom s.ct s.phase cw (n.toNat - 1)
  dir : t.dir = cw
  status : t.status = 0
  fault : t.fault = s.fault
  cmds : t.cmds = s.cmds.tail
  ct : t.ct = s.ct
  cfgInterval : t.cfgInterval = s.cfgInterval

theorem count_toNat_ne_zero {n : Count} (hn : n ≠ 0) : n.toNat ≠ 0 := BitVec.toNat_ne.mp hn

theorem count_ne_zero_of_lt {n : Count} {k : Nat} (hk : k < n.toNat) : n ≠ 0 := by
  rintro rfl
  exact absurd hk (Nat.not_lt_zero k)

section
variable {s : State} {w : CmdWord} {n : Count} {cw : Bool} (hf : fetch s = some w)
  (hd : decode w = .instr (.step n cw))
include hf hd

/-- The acceptance of a STEP of no iteration, which completes it. -/
theorem accept_step_zero (hn : n = 0) :
    ∃ i l, ∃ t, step s = .next t ∧ stepEvents s t = [.completed 0] ∧ t = { s with
      cmds := s.cmds.tail, status := 0, seq := .idle, done := true, inputs := i, later := l } := by
  have hst := step_of_fetch_instr hf hd
  subst hn
  rw [effect, acceptStep_zero] at hst
  obtain ⟨i, l, he⟩ := nextInputs_eq (complete okCode (takeCommand (startTick s)))
  rw [he] at hst
  refine ⟨i, l, _, hst, ?_, ?_⟩
  · obtain ⟨ha, hs, -⟩ := fetch_eq_some.mp hf
    simp [stepEvents, outputEvents, ha, hs, stopAccepted, hf, hd, okCode]
  · simp [complete, okCode, takeCommand, startTick]

/-- Before its write number `k + 1` a STEP has made `k` iterations, each with its wait. -/
theorem before_write {k : Nat} (hk : k < n.toNat) (hT : k ≠ 0 → s.cfgInterval ≠ 0)
    (hu : holdsFor undisturbed (1 + k + k * s.cfgInterval.toNat) s = true) :
    ∃ i l tm d o, runSteps (1 + k + k * s.cfgInterval.toNat) s = .next { s with
        cmds := s.cmds.tail, out := o, phase := s.phase + delta cw * BitVec.ofNat 3 k, rem := n - BitVec.ofNat 32 k
        dir := cw, tmr := tm, seq := .drive, done := d, inputs := i, later := l } ∧
      (1 ≤ k → o = entryFrom s.ct s.phase cw (k - 1)) ∧ (k = 0 → o = s.out) ∧
      trace (1 + k + k * s.cfgInterval.toNat) s =
        (List.range k).flatMap (fun j => [.write (entryFrom s.ct s.phase cw j), .waited]) := by
  have hlen : 1 + k + k * s.cfgInterval.toNat = k * (1 + s.cfgInterval.toNat) + 1 := by ring
  obtain ⟨i, l, t, hst, hev, rfl⟩ := accept_step hf hd (count_ne_zero_of_lt hk)
  rw [hlen] at hu ⊢
  rw [runSteps_succ hst, trace_succ hst, hev, List.nil_append]
  rcases Nat.eq_zero_or_pos k with rfl | hpos
  · exact ⟨i, l, s.tmr, false, s.out, by simp [runSteps], by simp, by simp, by simp [trace]⟩
  · obtain ⟨i', l', tm, d, o, hrun, hout, -, htrace⟩ :=
      iterate_many (s := { s with
        cmds := s.cmds.tail, done := false, dir := cw, rem := n, seq := .drive, inputs := i, later := l })
        k rfl hk (hT (Nat.ne_of_gt hpos)) (holdsFor_tail hu hst)
    exact ⟨i', l', tm, d, o, hrun, fun h => (hout h).1, fun h => absurd h (Nat.ne_of_gt hpos), htrace⟩

/-- The big-step form of a STEP of at least one iteration. Without a wait the interval does not matter. -/
theorem whole_step (hn : n ≠ 0) (hT : n ≠ 1 → s.cfgInterval ≠ 0)
    (hu : holdsFor undisturbed (stepLength n.toNat s.cfgInterval.toNat) s = true) :
    ∃ t, runSteps (stepLength n.toNat s.cfgInterval.toNat) s = .next t ∧ Stepped n cw s t ∧
      trace (stepLength n.toNat s.cfgInterval.toNat) s =
        writesFrom s.ct s.phase cw n.toNat ++ [.completed 0] := by
  obtain ⟨k, hk⟩ : ∃ k, n.toNat = k + 1 := Nat.exists_eq_succ_of_ne_zero (count_toNat_ne_zero hn)
  have hlen : stepLength n.toNat s.cfgInterval.toNat = 1 + k + k * s.cfgInterval.toNat + 1 := by
    rw [hk, stepLength, Nat.add_sub_cancel]
    ring
  have hTk : k ≠ 0 → s.cfgInterval ≠ 0 := fun h0 => hT (by bv_omega)
  rw [hlen] at hu ⊢
  obtain ⟨u, hrun⟩ := runSteps_next (1 + k + k * s.cfgInterval.toNat) s
  obtain ⟨hu₁, hu₂⟩ := holdsFor_split hu hrun
  obtain ⟨i, l, tm, d, o, hbefore, -, -, htrace⟩ := before_write hf hd (by omega) hTk hu₁
  obtain rfl := Host.Outcome.next.inj (hbefore.symm.trans hrun)
  have hlast : n - BitVec.ofNat 32 k = 1 := by bv_omega
  obtain ⟨i', l', t, hst, hev, rfl⟩ := finish_step rfl hlast (holdsFor_head (k := 0) hu₂)
  rw [runSteps_add hrun, trace_add hrun, runSteps_succ hst, trace_succ hst, hev, htrace, hk, writesFrom_succ]
  refine ⟨_, rfl, ⟨rfl, ?_, ?_, rfl, rfl, rfl, rfl, rfl, rfl⟩, ?_⟩
  · rw [hk, ← delta_succ]
    exact add_right_comm _ _ _
  · rw [hk]; rfl
  · simp [trace, entryFrom]

end

/-- The outputs show the entry one position behind `PHASE` (10_state.md R31, I3). -/
theorem Stepped.out_behind {n : Count} {cw : Bool} {s t : State} (h : Stepped n cw s t) (hn : n ≠ 0) :
    t.out = tableRead s.ct (t.phase - delta cw) := by
  obtain ⟨k, hk⟩ : ∃ k, n.toNat = k + 1 := Nat.exists_eq_succ_of_ne_zero (count_toNat_ne_zero hn)
  rw [h.out, h.phase, hk, ← delta_succ, add_right_comm, add_sub_cancel_right]
  rfl

/-! ## Commands issued one after the other -/

/-- Nothing disturbs the block, and the host presents the commands it has. -/
def attended (s : State) : Bool := undisturbed s && s.inputs.present

theorem attended_iff (s : State) : attended s = true ↔ undisturbed s = true ∧ s.inputs.present = true :=
  Bool.and_eq_true_iff

theorem fetch_of_attended {s : State} {w : CmdWord} {rest : List CmdWord} (hs : s.seq = .idle) (hc : s.cmds = w :: rest)
    (h : attended s = true) : fetch s = some w := by
  obtain ⟨hu, hp⟩ := (attended_iff s).mp h
  obtain ⟨ha, -⟩ := (undisturbed_iff s).mp hu
  exact fetch_eq_some.mpr ⟨ha, hs, hp, by rw [hc, List.head?_cons]⟩

/-- A STEP at the head of the host's list is accepted and runs as a whole. -/
theorem issued_step {s : State} {n : Count} {cw : Bool} {rest : List CmdWord} (hs : s.seq = .idle)
    (hc : s.cmds = encode (.step n cw) :: rest) (hn : n ≠ 0) (hT : n ≠ 1 → s.cfgInterval ≠ 0)
    (hu : holdsFor attended (stepLength n.toNat s.cfgInterval.toNat) s = true) :
    ∃ t, runSteps (stepLength n.toNat s.cfgInterval.toNat) s = .next t ∧ Stepped n cw s t ∧
      trace (stepLength n.toNat s.cfgInterval.toNat) s =
        writesFrom s.ct s.phase cw n.toNat ++ [.completed 0] := by
  have hhead : attended s = true := by
    rw [stepLength, Nat.add_assoc, Nat.add_comm] at hu
    exact holdsFor_head hu
  exact whole_step (fetch_of_attended hs hc hhead) (decodeOfEncode (.step n cw) rfl) hn hT
    (holdsFor_mono (fun u hu => ((attended_iff u).mp hu).1) hu)

theorem runSteps_ct {k : Nat} {s t : State} (h : runSteps k s = .next t) : t.ct = s.ct :=
  runSteps_invariant (P := fun u => u.ct = s.ct) (fun _ _ hu hst => (step_ct hst).trans hu) rfl h

theorem delta_not (cw : Bool) : delta (!cw) = -delta cw := by cases cw <;> rfl

/-! ## Single transitions -/

theorem complete_ok (s : State) : complete okCode s = { s with status := 0, seq := .idle, done := true } := by
  simp [complete, okCode]

theorem complete_ok_of_idle {s : State} (hs : s.seq = .idle) :
    complete okCode s = { s with status := 0, done := true } := by
  rw [complete_ok, ← hs]

theorem iterate_phase {s : State} (hw : s.inputs.wrFail = false) : (iterate s).phase = s.phase + delta s.dir := by
  by_cases hr : s.rem = 1
  · rw [iterate_last hw hr]
  · rw [iterate_more hw hr]

/-- The 3-bit advance is the mathematical one (40_step_and_stop.md R62). -/
theorem phase_add_delta_toNat (p : Phase) (cw : Bool) :
    ((p + delta cw).toNat : ℤ) = ((p.toNat : ℤ) + (if cw then 1 else -1)) % 8 := by
  cases cw with
  | true => simp [delta]
  | false => simp [delta]; omega

end Sys2Proof.Machine

namespace Sys2Proof

open Machine

/-- Settles O50: a STEP of no iteration completes at its acceptance, and any other is `whole_step`. -/
theorem wholeStepClosedForm : Obligations.WholeStepClosedForm := by
  intro s w n cw hf hd hT hu
  by_cases hn : n = 0
  · obtain ⟨i, l, t, hst, hev, rfl⟩ := accept_step_zero hf hd hn
    have h0 : n.toNat = 0 := by rw [hn]; rfl
    rw [h0, stepLength_zero, runSteps_succ hst, trace_succ hst, hev]
    exact ⟨_, rfl, rfl, by simp, by simp, by simp, rfl, rfl, rfl⟩
  · obtain ⟨t, hrun, h, htrace⟩ := whole_step hf hd hn (fun _ => hT) hu
    exact ⟨t, hrun, htrace, h.phase, fun _ => ⟨h.out, h.dir⟩, fun h0 => absurd h0 (count_toNat_ne_zero hn),
      h.status, h.fault, h.seq⟩

/-- Settles O51, by the state before a write. -/
theorem noPhaseIsSkipped : Obligations.NoPhaseIsSkipped := by
  intro s w n cw k hf hd hT hk hu
  obtain ⟨i, l, tm, d, o, hrun, hout, hout₀, -⟩ := before_write hf hd hk (fun _ => hT) hu
  have hrem : (n - BitVec.ofNat 32 k).toNat = n.toNat - k := by bv_omega
  exact ⟨_, hrun, rfl, rfl, hrem, rfl, hout, hout₀⟩

/-- Settles O52: the two STEPs run one after the other, and the second leaves the outputs one position behind its own
direction. -/
theorem reversalEndsOnePositionBehind : Obligations.ReversalEndsOnePositionBehind := by
  intro s n m cw rest hs hc hn hm hT hu
  obtain ⟨u, hrun⟩ := runSteps_next (stepLength n.toNat s.cfgInterval.toNat) s
  obtain ⟨hu₁, hu₂⟩ := holdsFor_split hu hrun
  obtain ⟨_, hrun', h₁, -⟩ := issued_step hs hc hn (fun _ => hT) hu₁
  obtain rfl := Host.Outcome.next.inj (hrun.symm.trans hrun')
  rw [← h₁.cfgInterval] at hT hu₂
  have hcmds : u.cmds = encode (.step m !cw) :: rest := by rw [h₁.cmds, hc, List.tail_cons]
  obtain ⟨t, hrun₂, h₂, -⟩ := issued_step h₁.seq hcmds hm (fun _ => hT) hu₂
  have hphase : t.phase = s.phase + delta cw * BitVec.ofNat 3 n.toNat + delta (!cw) * BitVec.ofNat 3 m.toNat := by
    rw [h₂.phase, h₁.phase]
  have hout : t.out = tableRead s.ct (t.phase + delta cw) := by
    rw [h₂.out_behind hm, h₁.ct, delta_not, sub_neg_eq_add]
  have hback : n = m → t.phase = s.phase := by
    rintro rfl
    rw [hphase, delta_not]
    ring
  refine ⟨t, ?_, h₂.seq, h₂.status, h₂.fault.trans h₁.fault, by rw [h₂.cmds, hcmds, List.tail_cons], hphase, hout,
    fun h => ⟨hback h, by rw [hout, hback h]⟩⟩
  rw [runSteps_add hrun, ← h₁.cfgInterval, hrun₂]

/-- Settles O53, by induction on the number of steps, the last of which is a whole STEP without a wait. -/
theorem singleStepsAddUp : Obligations.SingleStepsAddUp := by
  intro s k cw rest hs hc hu
  induction k generalizing rest with
  | zero => exact ⟨s, rfl, hs, hc, rfl, by simp, by simp, rfl⟩
  | succ k ih =>
    obtain ⟨u, hrun⟩ := runSteps_next (2 * k) s
    obtain ⟨hu₁, hu₂⟩ := holdsFor_split (k := 2) hu hrun
    have hc' : s.cmds = List.replicate k (encode (.step 1 cw)) ++ (encode (.step 1 cw) :: rest) := by
      rw [hc, List.replicate_succ', List.append_assoc, List.singleton_append]
    obtain ⟨_, hrun', hseq, hcmds, hfault, hphase, -, htrace⟩ := ih _ hc' hu₁
    obtain rfl := Host.Outcome.next.inj (hrun.symm.trans hrun')
    have hlen : stepLength (1 : Count).toNat u.cfgInterval.toNat = 2 := stepLength_one _
    obtain ⟨t, hrun₂, h, htrace₂⟩ := issued_step hseq hcmds (by decide) (absurd rfl) (by rw [hlen]; exact hu₂)
    rw [hlen] at hrun₂ htrace₂
    refine ⟨t, (runSteps_add hrun 2).trans hrun₂, h.seq, by rw [h.cmds, hcmds, List.tail_cons], h.fault.trans hfault, ?_,
      fun _ => ⟨h.status, h.dir⟩, ?_⟩
    · rw [h.phase, hphase, ← delta_succ, add_right_comm]
      simp
    · rw [show 2 * (k + 1) = 2 * k + 2 from rfl, trace_add hrun, htrace, htrace₂, runSteps_ct hrun, hphase,
        List.range_succ, List.flatMap_append]
      simp [writesFrom, entryFrom]

/-- Settles O13: a part of a wait, or the whole of it. -/
theorem waitLastsExactlyTheInterval : Obligations.WaitLastsExactlyTheInterval := by
  intro s j hs h0 hj hu
  rcases Nat.lt_or_eq_of_le hj with hlt | rfl
  · obtain ⟨i, l, d, hrun, -⟩ := wait_part j hs hlt hu
    have htmr : (s.tmr - BitVec.ofNat 32 j).toNat = s.tmr.toNat - j := by bv_omega
    exact ⟨_, hrun, rfl, rfl, rfl, rfl, htmr, by rw [if_neg (Nat.ne_of_lt hlt), hs]⟩
  · obtain ⟨i, l, hrun, -⟩ := wait_whole hs h0 hu
    exact ⟨_, hrun, rfl, rfl, rfl, rfl, (Nat.sub_self _).symm, (if_pos rfl).symm⟩

/-- Settles O40, by what the step did. -/
theorem sequencerHasOnlyTheListedArcs : Obligations.SequencerHasOnlyTheListedArcs := by
  intro s ha
  obtain ⟨u, hu, hst⟩ := step_did s
  refine ⟨_, hst, ?_⟩
  rw [nextInputs_seq]
  cases hu with
  | held hr => exact absurd hr (not_held ha)
  | inited _ hh => exact absurd hh (not_releasing ha)
  | rested _ hs =>
    rcases hs with hs | ⟨hs, hf⟩
    · simp [hs]
    · simp [hs, hf]
  | rejected _ hs hf hd => simp [hs, hf, hd]
  | stopped _ hs hf hd => simp [hs, hf, hd, commandedCount]
  | completed _ hs hf hd _ hn | refused _ hs hf hd _ hn => simp [hs, hf, hd, hn]
  | started _ hs hf hd _ hn hc => simp [hs, hf, hd, hc, count_toNat_ne_zero hn]
  | writeFailed _ hs hw => simp [hs, hw, raise_running]
  | finished _ hs hw hr | iterated _ hs hw hr => simp only [hs, hw, hr, reduceIte, Bool.false_eq_true]
  | cancelled _ hs hc => simp [hs, hc, raise_running]
  | expired _ hs hc ht | counted _ hs hc ht => simp only [hs, hc, ht, reduceIte, Bool.false_eq_true]

/-- Settles O44, one way of accepting a command after the other. -/
theorem acceptanceFrame : Obligations.AcceptanceFrame := by
  intro i s
  refine ⟨_, exec_eq i s, ?_⟩
  rcases effect_states i s with ⟨hi, -, h⟩ | ⟨hi, -, h⟩ | ⟨hi, n, cw, -, -, h⟩
  · rw [h]
    exact ⟨rfl, fun _ => ⟨rfl, rfl, rfl⟩, fun hne => absurd hi hne, fun _ => ⟨rfl, rfl⟩, nofun⟩
  · rcases h with h | h <;> rw [h] <;>
      exact ⟨rfl, fun hstop => absurd hstop hi, fun _ => rfl, fun _ => ⟨rfl, rfl⟩, nofun⟩
  · rw [h]
    exact ⟨rfl, fun hstop => absurd hstop hi, fun _ => rfl, fun hne => absurd rfl hne, fun _ => ⟨rfl, rfl, rfl⟩⟩

/-- Settles O6, by the completion of a STOP in IDLE and the opcode of its words. -/
theorem stopForcesOutputsLow : Obligations.StopForcesOutputsLow := by
  refine ⟨fun s hs => ?_, fun arg => decode_stop (opField_append _ _)⟩
  rw [exec_eq, effect, complete_ok_of_idle (s := outOff s) hs]
  rfl

/-- Settles O7: what a STOP writes is the same whatever it finds, and a cancellation ends in `OutOff` as well. -/
theorem stopIsIdempotent : Obligations.StopIsIdempotent := by
  refine ⟨fun s => ⟨_, exec_eq .stop s, ?_, rfl⟩, fun s ha hs hc => ⟨_, step_of_wait ha hs, ?_⟩⟩
  · rw [exec_eq, effect, effect, complete_ok, complete_ok]
    rfl
  · rw [nextInputs_out, waitTick_cancelled (s := startTick s) hc, raise_interrupted_out]

/-- Settles O8, by the two cases of an acceptance. -/
theorem stepAcceptanceStartsTheLoop : Obligations.StepAcceptanceStartsTheLoop := by
  refine fun s count cw hs => ⟨fun hn => ?_, ?_⟩
  · rw [exec_eq, effect, acceptStep_pos hn]
  · rintro rfl
    rw [exec_eq, effect, acceptStep_zero, complete_ok_of_idle hs]

/-- Settles O9, as the second case of the acceptance of a STEP. -/
theorem stepOfZeroOnlyReportsSuccess : Obligations.StepOfZeroOnlyReportsSuccess :=
  fun s cw hs => (stepAcceptanceStartsTheLoop s 0 cw hs).2 rfl

/-- Settles O10: an iteration with more to come, the last one, and a failed write. -/
theorem iterationWritesThenAdvances : Obligations.IterationWritesThenAdvances := by
  intro s ha hs
  rw [step_of_drive ha hs, ← delta_eq]
  refine ⟨fun hw hr => ?_, fun hw hr => ?_, fun hw => ⟨_, rfl, ?_⟩⟩
  · rw [iterate_more (s := startTick s) hw hr]
    rfl
  · rw [iterate_last (s := startTick s) hw hr]
    rfl
  · rw [iterate_fails (s := startTick s) hw]
    simp [raise_running, raise_report, ErrorCause.code]

/-- Settles O11: the advance of a successful iteration, read on integers. -/
theorem phaseAdvancesModuloEight : Obligations.PhaseAdvancesModuloEight := by
  intro s ha hs hw
  have hphase : (nextInputs (iterate (startTick s))).phase = s.phase + delta s.dir := by
    rw [nextInputs_phase, iterate_phase (s := startTick s) hw, startTick_phase, startTick_dir]
  refine ⟨_, step_of_drive ha hs, Int.natCast_nonneg _, ?_, ?_⟩
  · exact_mod_cast BitVec.isLt _
  · rw [hphase, phase_add_delta_toNat]

/-- Settles O12: the last tick, any other tick, and a cancellation. -/
theorem waitTickCountsDown : Obligations.WaitTickCountsDown := by
  intro s ha hs
  rw [step_of_wait ha hs]
  refine ⟨fun hc ht => ?_, fun hc ht => ?_, fun hc => ⟨_, rfl, ?_⟩⟩
  · rw [waitTick_expires (s := startTick s) hc ht]
    rfl
  · rw [waitTick_counts (s := startTick s) hc ht]
    rfl
  · rw [waitTick_cancelled (s := startTick s) hc]
    simp [raise_running, raise_report, ErrorCause.code]

end Sys2Proof
end

section
/-! Rounding to binary64 (41_rotation_commands.md R80, 93_implementation_defined.md G2): `roundMagnitude` against the
exact rational number, and the two operations of `RAD2DEG`. -/

namespace Sys2Proof.Machine

/-! ## The significand a rational number is rounded to -/

/-- The rational number `num / den` in units of the last place of the exponent it is rounded at. -/
def inUlps (num den : Nat) : ℚ := (num : ℚ) / den * 2 ^ 1075 / 2 ^ roundScale num den

/-- The whole number of these units nearest to it. -/
def roundedUlps (num den : Nat) : Nat := roundHalfEven (num <<< 1075) (den <<< roundScale num den)

/-- The bits `[62:0]` of that many units, before the overflow to infinity. -/
def roundedBits (num den : Nat) : Nat := (roundScale num den - 1) * 2 ^ 52 + roundedUlps num den

theorem roundMagnitude_eq (num den : Nat) : roundMagnitude num den = min (2047 * 2 ^ 52) (roundedBits num den) := by
  rw [roundMagnitude, infinityBits_eq, Nat.shiftLeft_eq _ 52]
  rfl

theorem inUlps_eq (num den : Nat) :
    ((num <<< 1075 : Nat) : ℚ) / ((den <<< roundScale num den : Nat) : ℚ) = inUlps num den := by
  rw [inUlps]
  generalize 1075 = k
  rw [Nat.shiftLeft_eq, Nat.shiftLeft_eq, div_mul_eq_mul_div, div_div]
  push_cast
  rfl

theorem inUlps_mul (num den : Nat) : inUlps num den * 2 ^ roundScale num den = (num : ℚ) / den * 2 ^ 1075 :=
  div_mul_cancel₀ _ (pow_ne_zero _ two_ne_zero)

section
variable {num den : Nat} (hd : den ≠ 0)
include hd

theorem inUlps_lt : inUlps num den < 2 ^ 53 := by
  obtain ⟨-, hlt, -⟩ := roundScale_bounds num den hd
  rw [inUlps, div_lt_iff₀ (by positivity), ← pow_add, add_comm 53]
  exact hlt

theorem roundScale_eq_one_or_le_inUlps : roundScale num den = 1 ∨ 2 ^ 52 ≤ inUlps num den := by
  obtain ⟨-, -, hle⟩ := roundScale_bounds num den hd
  rw [inUlps, le_div_iff₀ (by positivity), ← pow_add, add_comm 52]
  exact hle

theorem shifted_den_ne_zero : den <<< roundScale num den ≠ 0 := by
  rw [Nat.shiftLeft_eq]
  positivity

theorem roundedUlps_near : |(roundedUlps num den : ℚ) - inUlps num den| ≤ 1 / 2 := by
  rw [← inUlps_eq]
  exact roundHalfEven_near _ _ (shifted_den_ne_zero hd)

theorem roundedUlps_tie (h : |(roundedUlps num den : ℚ) - inUlps num den| = 1 / 2) : Even (roundedUlps num den) := by
  rw [← inUlps_eq] at h
  exact roundHalfEven_tie _ _ (shifted_den_ne_zero hd) h

theorem roundedUlps_le : roundedUlps num den ≤ 2 ^ 53 := by
  have hnear := (abs_le.mp (roundedUlps_near (num := num) hd)).2
  have hlt : (roundedUlps num den : ℚ) < (2 ^ 53 + 1 : Nat) := by
    push_cast
    linarith [inUlps_lt (num := num) hd]
  exact Nat.lt_succ_iff.mp (Nat.cast_lt.mp hlt)

theorem roundScale_eq_one_or_le_roundedUlps : roundScale num den = 1 ∨ 2 ^ 52 ≤ roundedUlps num den := by
  refine (roundScale_eq_one_or_le_inUlps hd).imp_right fun hle => ?_
  have hnear := (abs_le.mp (roundedUlps_near (num := num) hd)).1
  have hlt : ((2 ^ 52 : Nat) : ℚ) < (roundedUlps num den + 1 : Nat) := by
    push_cast
    linarith
  exact Nat.lt_succ_iff.mp (Nat.cast_lt.mp hlt)

/-- Half a unit below `2^53` is a tie, which goes up to the even number. -/
theorem roundedUlps_lt_iff : roundedUlps num den < 2 ^ 53 ↔ inUlps num den < 2 ^ 53 - 1 / 2 := by
  have hnear := abs_le.mp (roundedUlps_near (num := num) hd)
  constructor
  · intro hlt
    have hle : (roundedUlps num den : ℚ) ≤ (2 ^ 53 - 1 : Nat) := Nat.cast_le.mpr (Nat.le_pred_of_lt hlt)
    have hcast : ((2 ^ 53 - 1 : Nat) : ℚ) = 2 ^ 53 - 1 := by norm_num
    rw [hcast] at hle
    by_contra hge
    have hmax : (roundedUlps num den : ℚ) = (2 ^ 53 - 1 : Nat) := by rw [hcast]; linarith
    have heven := roundedUlps_tie (num := num) hd (by rw [abs_eq (by norm_num)]; right; linarith)
    rw [Nat.cast_injective hmax] at heven
    exact absurd heven (by decide)
  · intro hlt
    have : (roundedUlps num den : ℚ) < (2 ^ 53 : Nat) := by
      push_cast
      linarith
    exact Nat.cast_lt.mp this

/-- The bits stay below those of infinity exactly for a number that is less than half a unit beyond the largest finite
one. -/
theorem roundedBits_lt_iff : roundedBits num den < 2047 * 2 ^ 52 ↔ (num : ℚ) / den < 2 ^ 1024 - 2 ^ 970 := by
  obtain ⟨U, hUeq, hU, -, hthreshold⟩ := exists_unit
  have hmax : (0 : ℚ) < 2 ^ 2046 := by positivity
  have hunit : (0 : ℚ) < 2 ^ roundScale num den := by positivity
  have hscale : 1 ≤ roundScale num den := (roundScale_bounds num den hd).1
  have hle := roundedUlps_le (num := num) hd
  rw [← mul_lt_mul_iff_left₀ hU, hthreshold, hUeq, ← inUlps_mul, roundedBits]
  rcases Nat.lt_trichotomy (roundScale num den) 2046 with h | h | h
  · refine iff_of_true (by omega) ?_
    have hsmall : (2 : ℚ) ^ (roundScale num den + 1) ≤ 2 ^ 2046 := pow_le_pow_right₀ one_le_two h
    rw [pow_succ] at hsmall
    have hlt := mul_lt_mul_of_pos_right (inUlps_lt (num := num) hd) hunit
    generalize (2 : ℚ) ^ 2046 = P at *
    linarith
  · rw [h, mul_lt_mul_iff_left₀ hmax, ← roundedUlps_lt_iff hd]
    omega
  · have hulps := (roundScale_eq_one_or_le_roundedUlps (num := num) hd).resolve_left (by omega)
    refine iff_of_false (by omega) (not_lt.mpr ?_)
    have hlarge : (2 : ℚ) ^ (2046 + 1) ≤ 2 ^ roundScale num den := pow_le_pow_right₀ one_le_two h
    rw [pow_succ] at hlarge
    have hge := mul_le_mul_of_nonneg_right
      ((roundScale_eq_one_or_le_inUlps (num := num) hd).resolve_left (by omega)) hunit.le
    generalize (2 : ℚ) ^ 2046 = P at *
    linarith

end

/-! ## The number that is packed -/

theorem roundMagnitude_of_lt {num den : Nat} (h : roundedBits num den < 2047 * 2 ^ 52) :
    roundMagnitude num den = roundedBits num den := by
  rw [roundMagnitude_eq, min_eq_right h.le]

theorem roundMagnitude_of_le {num den : Nat} (h : 2047 * 2 ^ 52 ≤ roundedBits num den) :
    roundMagnitude num den = 2047 * 2 ^ 52 := by
  rw [roundMagnitude_eq, min_eq_left h]

theorem isFinite_nearestAngle (s : Bool) (num den : Nat) :
    isFinite (nearestAngle s num den) = true ↔ roundedBits num den < 2047 * 2 ^ 52 := by
  rw [isFinite_iff, nearestAngle, (pack_fields s (roundMagnitude_lt num den)).1, roundMagnitude_eq]
  omega

theorem fracField_nearestAngle {s : Bool} {num den : Nat} (h : isFinite (nearestAngle s num den) = false) :
    fracField (nearestAngle s num den) = 0 := by
  rw [← Bool.not_eq_true, isFinite_nearestAngle, not_lt] at h
  rw [nearestAngle, (pack_fields s (roundMagnitude_lt num den)).2.1, roundMagnitude_of_le h, Nat.mul_mod_left]

section
variable {num den : Nat} (hd : den ≠ 0) (h : isFinite (nearestAngle false num den) = true)
include hd h

/-- A finite result is the rounded number of units of the last place. -/
theorem nearestAngle_finite :
    magnitude (nearestAngle false num den) = roundedUlps num den * 2 ^ roundScale num den ∧
      significand (nearestAngle false num den) =
        if roundedUlps num den = 2 ^ 53 then 2 ^ 52 else roundedUlps num den := by
  rw [isFinite_nearestAngle] at h
  rw [nearestAngle, roundMagnitude_of_lt h]
  exact pack_magnitude false (roundScale_bounds num den hd).1 (roundedUlps_le hd)
    (roundScale_eq_one_or_le_roundedUlps hd) h

theorem even_significand_nearestAngle (heven : Even (roundedUlps num den)) :
    Even (significand (nearestAngle false num den)) := by
  rw [(nearestAngle_finite hd h).2]
  split
  · decide
  · exact heven

theorem angleValue_nearestAngle :
    angleValue (nearestAngle false num den) * 2 ^ 1075 = roundedUlps num den * 2 ^ roundScale num den := by
  have hsign : signBit (nearestAngle false num den) = false := (pack_fields false (roundMagnitude_lt num den)).2.2
  rw [angleValue_eq, hsign, (nearestAngle_finite hd h).1, if_neg Bool.false_ne_true, one_mul,
    div_mul_cancel₀ _ (pow_ne_zero _ two_ne_zero)]
  push_cast
  rfl

end

/-! ## Nearest, and even at a tie -/

theorem abs_sub_mul_of_nonneg {e : ℚ} (he : 0 ≤ e) (x y : ℚ) : |x - y| * e = |x * e - y * e| := by
  rw [← sub_mul, abs_mul, abs_of_nonneg he]

/-- A number below all numbers of the exponent is farther away than the rounded one, which is no farther than the least
number of the exponent. -/
theorem roundedUlps_nearer_of_below {num den : Nat} (hd : den ≠ 0) {v : ℚ} (hscale : 2 ≤ roundScale num den)
    (hv : v < 2 ^ (roundScale num den + 52)) :
    |(roundedUlps num den : ℚ) - inUlps num den| * 2 ^ roundScale num den <
      |v - inUlps num den * 2 ^ roundScale num den| := by
  have hunit : (0 : ℚ) < 2 ^ roundScale num den := by positivity
  have hle := (roundScale_eq_one_or_le_inUlps (num := num) hd).resolve_left (by omega)
  have hnear := nearest_of_half (R := roundedUlps num den) (k := 2 ^ 52) (roundedUlps_near (num := num) hd)
  rw [Int.cast_natCast, Int.cast_pow, Int.cast_ofNat, abs_sub_comm (2 ^ 52),
    abs_of_nonneg (sub_nonneg.mpr hle)] at hnear
  rw [pow_add, mul_comm] at hv
  calc |(roundedUlps num den : ℚ) - inUlps num den| * 2 ^ roundScale num den
      ≤ (inUlps num den - 2 ^ 52) * 2 ^ roundScale num den := mul_le_mul_of_nonneg_right hnear hunit.le
    _ = inUlps num den * 2 ^ roundScale num den - 2 ^ 52 * 2 ^ roundScale num den := sub_mul _ _ _
    _ < inUlps num den * 2 ^ roundScale num den - v := sub_lt_sub_left hv _
    _ ≤ |v - inUlps num den * 2 ^ roundScale num den| := by rw [abs_sub_comm]; exact le_abs_self _

/-- No binary64 number is nearer than the rounded one, and another that is as near makes it even. -/
theorem roundedUlps_nearest {num den : Nat} (hd : den ≠ 0) (b : Angle) :
    |(roundedUlps num den : ℚ) - inUlps num den| * 2 ^ roundScale num den ≤
        |angleValue b * 2 ^ 1075 - inUlps num den * 2 ^ roundScale num den| ∧
      (angleValue b * 2 ^ 1075 ≠ roundedUlps num den * 2 ^ roundScale num den →
        |(roundedUlps num den : ℚ) - inUlps num den| * 2 ^ roundScale num den =
          |angleValue b * 2 ^ 1075 - inUlps num den * 2 ^ roundScale num den| → Even (roundedUlps num den)) := by
  have hunit : (0 : ℚ) < 2 ^ roundScale num den := by positivity
  have hnear := roundedUlps_near (num := num) hd
  rcases multiple_or_below b (roundScale num den) (by positivity) angleValue_eq with ⟨k, hk⟩ | ⟨hlt, hscale⟩
  · rw [hk, ← abs_sub_mul_of_nonneg hunit.le]
    refine ⟨mul_le_mul_of_nonneg_right (nearest_of_half (R := roundedUlps num den) hnear) hunit.le, fun hne heq => ?_⟩
    have hk' : k ≠ roundedUlps num den := by
      rintro rfl
      exact hne rfl
    exact roundedUlps_tie hd
      (half_of_equidistant (R := roundedUlps num den) hnear hk' (mul_right_cancel₀ hunit.ne' heq))
  · have hfar := roundedUlps_nearer_of_below hd hscale hlt
    exact ⟨hfar.le, fun _ heq => absurd heq hfar.ne⟩

theorem isRounding_nearestAngle (num : Nat) {den : Nat} (hd : den ≠ 0) :
    IsRounding ((num : ℚ) / den) (nearestAngle false num den) := by
  have hU : (0 : ℚ) < 2 ^ 1075 := by positivity
  have hdist : ∀ v : ℚ, |v - (num : ℚ) / den| * 2 ^ 1075 =
      |v * 2 ^ 1075 - inUlps num den * 2 ^ roundScale num den| := by
    intro v
    rw [abs_sub_mul_of_nonneg hU.le, inUlps_mul]
  have hself : isFinite (nearestAngle false num den) = true →
      |angleValue (nearestAngle false num den) - (num : ℚ) / den| * 2 ^ 1075 =
        |(roundedUlps num den : ℚ) - inUlps num den| * 2 ^ roundScale num den := by
    intro h
    rw [hdist, angleValue_nearestAngle hd h, abs_sub_mul_of_nonneg (by positivity)]
  refine ⟨?_, fracField_nearestAngle, fun h b _ => ?_, fun h b _ hne heq => ?_⟩
  · rw [isFinite_nearestAngle, roundedBits_lt_iff hd, abs_of_nonneg (div_nonneg num.cast_nonneg den.cast_nonneg)]
  · rw [← mul_le_mul_iff_left₀ hU, hself h, hdist]
    exact (roundedUlps_nearest hd b).1
  · refine even_significand_nearestAngle hd h ((roundedUlps_nearest hd b).2 ?_ ?_)
    · rw [← angleValue_nearestAngle hd h]
      exact fun he => hne (mul_right_cancel₀ hU.ne' he)
    · rw [← hself h, heq, hdist]

/-! ## Either sign -/

theorem significand_negAngle (a : Angle) : significand (negAngle a) = significand a := by
  obtain ⟨hexp, hfrac, -⟩ := negAngle_fields a
  rw [significand, significand, hexp, hfrac]

/-- Rounding to nearest, ties to even, is symmetric. -/
theorem IsRounding.neg {x : ℚ} {t : Angle} (h : IsRounding x t) : IsRounding (-x) (negAngle t) := by
  have hdist : ∀ v : ℚ, |-v - -x| = |v - x| := fun v => by rw [neg_sub_neg, abs_sub_comm]
  have hdist' : ∀ b : Angle, |angleValue b - -x| = |angleValue (negAngle b) - x| := fun b => by
    rw [← hdist, angleValue_negAngle, neg_neg]
  constructor
  · rw [isFinite_negAngle, abs_neg]
    exact h.overflow
  · rw [isFinite_negAngle, (negAngle_fields t).2.1]
    exact h.infinity
  · intro ht b hb
    rw [isFinite_negAngle] at ht
    rw [angleValue_negAngle, hdist, hdist']
    exact h.nearest ht _ (by rwa [isFinite_negAngle])
  · intro ht b hb hne heq
    rw [isFinite_negAngle] at ht
    rw [angleValue_negAngle] at hne heq
    rw [hdist, hdist'] at heq
    rw [significand_negAngle]
    refine h.tie ht _ (by rwa [isFinite_negAngle]) ?_ heq
    rw [angleValue_negAngle]
    exact fun he => hne (neg_eq_iff_eq_neg.mp he)

theorem isRounding_packAngle (s : Bool) (num : Nat) {den : Nat} (hd : den ≠ 0) :
    IsRounding ((if s then -1 else 1) * ((num : ℚ) / den)) (packAngle s (roundMagnitude num den)) := by
  cases s with
  | false =>
    rw [if_neg Bool.false_ne_true, one_mul]
    exact isRounding_nearestAngle num hd
  | true =>
    rw [if_pos rfl, neg_one_mul]
    exact pack_not false _ ▸ (isRounding_nearestAngle num hd).neg

/-! ## The two operations of `RAD2DEG` -/

theorem signBit_times180 (r : Angle) : signBit (times180 r) = signBit r := (pack_fields _ (roundMagnitude_lt _ _)).2.2

theorem signBit_overPi (t : Angle) : signBit (overPi t) = signBit t := (pack_fields _ (roundMagnitude_lt _ _)).2.2

theorem isRounding_times180 (r : Angle) : IsRounding (angleValue r * 180) (times180 r) := by
  have hunit : unitScale ≠ 0 := by rw [unitScale_eq]; positivity
  have hvalue : angleValue r * 180 =
      (if signBit r then -1 else 1) * (((magnitude r * 180 : Nat) : ℚ) / (unitScale : Nat)) := by
    rw [angleValue_eq, unitScale_eq]
    generalize 1075 = k
    push_cast
    ring
  rw [hvalue]
  exact isRounding_packAngle _ _ hunit

theorem isRounding_overPi (t : Angle) : IsRounding (angleValue t / angleValue pi64) (overPi t) := by
  have hpi : magnitude pi64 ≠ 0 := by decide +kernel
  have hvalue : angleValue t / angleValue pi64 =
      (if signBit t then -1 else 1) * ((magnitude t : ℚ) / (magnitude pi64 : Nat)) := by
    have hsign : signBit pi64 = false := by decide
    have hU : (0 : ℚ) < 2 ^ 1075 := by positivity
    rw [angleValue_eq, angleValue_eq, hsign, if_neg Bool.false_ne_true, one_mul, mul_div_assoc,
      div_div_div_cancel_right₀ hU.ne']
  rw [hvalue]
  exact isRounding_packAngle _ _ hpi

/-! ## `RAD2DEG` and the sign (41_rotation_commands.md R80) -/

theorem times180_negAngle (r : Angle) : times180 (negAngle r) = negAngle (times180 r) := by
  rw [times180, times180, magnitude_neg, (negAngle_fields r).2.2, pack_not]

theorem overPi_negAngle (t : Angle) : overPi (negAngle t) = negAngle (overPi t) := by
  rw [overPi, overPi, magnitude_neg, (negAngle_fields t).2.2, pack_not]

/-- P4 of R80, for an operand that is not finite too. -/
theorem rad2deg_negAngle (r : Angle) : rad2deg (negAngle r) = negAngle (rad2deg r) := by
  rw [rad2deg, rad2deg, times180_negAngle, isFinite_negAngle, overPi_negAngle, apply_ite negAngle]

/-- P1 of R80. -/
theorem rad2deg_pi64 : rad2deg 0x400921FB54442D18#64 = 0x4066800000000000#64 := by decide +kernel

/-- P2 of R80. -/
theorem rad2deg_neg_half_pi64 : rad2deg 0xBFF921FB54442D18#64 = 0xC056800000000000#64 := by decide +kernel

end Sys2Proof.Machine

namespace Sys2Proof

open Machine

/-- Settles O29: the number of units of the last place is rounded to nearest, ties to even, and it is these units that
every other binary64 number is measured against. -/
theorem binaryRoundingIsToNearest : Obligations.BinaryRoundingIsToNearest :=
  fun num _ hd => isRounding_nearestAngle num hd

/-- Settles O30, with `times180 r` for the intermediate result. -/
theorem radToDegIsTimes180ThenOverPi : Obligations.RadToDegIsTimes180ThenOverPi := by
  intro r _
  refine ⟨times180 r, isRounding_times180 r, signBit_times180 r, ?_, fun ht => ?_, fun ht => ?_⟩
  · rw [rad2deg]
    split
    · rw [signBit_overPi, signBit_times180]
    · exact signBit_times180 r
  · rw [rad2deg, if_pos ht]
    exact isRounding_overPi _
  · rw [rad2deg, ht, if_neg Bool.false_ne_true]
    exact ht

/-- Settles O28: P1 to P3 are evaluated, and P4 is that each of the two operations commutes with the sign. -/
theorem radToDegNamedProperties : Obligations.RadToDegNamedProperties :=
  ⟨rad2deg_pi64, rad2deg_neg_half_pi64, by decide +kernel, by decide +kernel, fun r _ => rad2deg_negAngle r⟩

end Sys2Proof
end

section
/-! The step count and the direction of the rotations (41_rotation_commands.md R75 to R77). -/

namespace Sys2Proof.Machine

/-! ## `ROUND` (41_rotation_commands.md R77) -/

theorem roundHalfEven_of_eq {num den n : Nat} (hd : den ≠ 0) (h : (num : ℚ) / den = n) : roundHalfEven num den = n := by
  have hnum : num = n * den := by
    rw [div_eq_iff (Nat.cast_ne_zero.mpr hd)] at h
    exact_mod_cast h
  rw [hnum, roundHalfEven, Nat.mul_mod_left, if_pos (by omega), Nat.mul_div_cancel _ (Nat.pos_of_ne_zero hd)]

/-- The tie at one half goes down to the even number 0. -/
theorem roundHalfEven_eq_zero_iff {num den : Nat} (hd : den ≠ 0) :
    roundHalfEven num den = 0 ↔ (num : ℚ) / den ≤ 1 / 2 := by
  have hnear := roundHalfEven_near num den hd
  have htie := roundHalfEven_tie num den hd
  constructor
  · intro h
    rw [h, abs_le] at hnear
    push_cast at hnear
    linarith
  · intro h
    have hle : roundHalfEven num den ≤ 1 := by
      have : ((roundHalfEven num den : Nat) : ℚ) ≤ 1 := by linarith [(abs_le.mp hnear).2]
      exact_mod_cast this
    have hne : roundHalfEven num den ≠ 1 := by
      intro h1
      rw [h1, Nat.cast_one] at hnear htie
      have hhalf : (num : ℚ) / den = 1 / 2 := le_antisymm h (by linarith [(abs_le.mp hnear).2])
      refine absurd (htie ?_) Nat.not_even_one
      rw [hhalf]
      norm_num
    omega

/-! ## The step count and the direction (41_rotation_commands.md R75, R76) -/

theorem steps_of_magnitude_zero {a : Angle} (h : magnitude a = 0) (spr : Spr) : steps a spr = 0 := by
  rw [steps, h, Nat.zero_mul]
  exact roundHalfEven_of_eq steps_den_ne_zero (by simp)

theorem steps_negAngle (a : Angle) (spr : Spr) : steps (negAngle a) spr = steps a spr := by
  rw [steps, steps, magnitude_neg]

/-- Whole turns. -/
theorem steps_of_turns {a : Angle} {k : Nat} (h : angleValue a = 360 * k) (spr : Spr) :
    steps a spr = k * spr.toNat := by
  refine roundHalfEven_of_eq steps_den_ne_zero ?_
  rw [steps_ratio, h, abs_of_nonneg (by positivity)]
  push_cast
  ring

theorem dirOf_iff (a : Angle) : dirOf a = true ↔ 0 < angleValue a := by
  have hmag : 0 < (magnitude a : ℚ) / 2 ^ 1075 ↔ magnitude a ≠ 0 := by
    rw [div_pos_iff_of_pos_right (by positivity), Nat.cast_pos, Nat.pos_iff_ne_zero]
  rw [dirOf, angleValue_eq]
  cases signBit a with
  | true =>
    have hnonneg : 0 ≤ (magnitude a : ℚ) / 2 ^ 1075 := by positivity
    simp [hnonneg]
  | false => simp [hmag]

end Sys2Proof.Machine

namespace Sys2Proof

open Machine

/-- Settles O23: within one half is nearest, and a tie is even. -/
theorem roundIsNearestTiesToEven : Obligations.RoundIsNearestTiesToEven :=
  ⟨fun num den hd => ⟨fun k => nearest_of_half (R := roundHalfEven num den) (roundHalfEven_near num den hd),
    roundHalfEven_tie num den hd⟩, by decide, by decide, by decide⟩

/-- Settles O24, as `ROUND` of the exact share of a turn. -/
theorem stepCountIsTheRoundedShareOfATurn : Obligations.StepCountIsTheRoundedShareOfATurn := by
  intro a spr _
  rw [← steps_ratio]
  exact ⟨roundHalfEven_near _ _ steps_den_ne_zero, roundHalfEven_tie _ _ steps_den_ne_zero,
    fun h => steps_of_magnitude_zero ((angleValue_eq_zero a).mp h) spr, steps_negAngle a spr,
    fun _ h => steps_of_turns h spr, roundHalfEven_eq_zero_iff steps_den_ne_zero⟩

/-- Settles O26, by the three ways a rotation with a finite operand is accepted. -/
theorem rotateIsItsStep : Obligations.RotateIsItsStep := by
  intro s a hs ha
  have hfit : steps a s.cfgSpr < 2 ^ 32 →
      exec (.rotate a) s = exec (.step (BitVec.ofNat 32 (steps a s.cfgSpr)) (dirOf a)) s := by
    intro hn
    rw [exec_eq, exec_eq, effect, effect, rotateBy_fits ha hn]
  refine ⟨hfit, fun h0 => ?_, fun h0 hn => ?_, fun hn => ?_⟩
  · rw [hfit (by omega), h0]
    exact stepOfZeroOnlyReportsSuccess s (dirOf a) hs
  · rw [hfit hn]
    exact (stepAcceptanceStartsTheLoop s _ _ hs).1 (ofNat_count_ne_zero h0 hn)
  · rw [exec_eq, effect, rotateBy_unfit (.inr hn), raise_badCommand, ← hs]

/-- Settles O25: the sign of the exact value, and the rotation of no step. -/
theorem directionIsClockwiseExactlyForPositiveAngles :
    Obligations.DirectionIsClockwiseExactlyForPositiveAngles := by
  intro a ha
  refine ⟨dirOf_iff a, fun h0 => ⟨?_, fun spr => steps_of_magnitude_zero ((angleValue_eq_zero a).mp h0) spr⟩,
    fun s hs => (rotateIsItsStep s a hs ha).2.1⟩
  rw [← Bool.not_eq_true, dirOf_iff, h0]
  exact lt_irrefl 0

/-- Settles O18: every one of the reasons makes the rotation raise `BadCommand`. -/
theorem unfitRotationIsRefused : Obligations.UnfitRotationIsRefused := by
  intro s hs
  have hbad : raise .badCommand s = { s with status := 4, fault := true, done := true } := by
    rw [raise_badCommand, ← hs]
  refine ⟨fun a h => ?_, fun r h => ?_⟩
  · rw [exec_eq, effect, rotateBy_unfit h, hbad]
  · rw [exec_eq, effect, ← hbad]
    rcases h with h | h
    · rw [h]; rfl
    · rw [rotateBy_unfit h, ite_self]

/-- Settles O27: with a finite operand the one is the rotation by the degrees of the other. -/
theorem rotateRadIsRotateOfItsDegrees : Obligations.RotateRadIsRotateOfItsDegrees := by
  intro s r hs hr
  have heq : exec (.rotateRad r) s = exec (.rotate (rad2deg r)) s := by
    rw [exec_eq, exec_eq, effect, effect, if_pos hr]
  refine ⟨fun h => (unfitRotationIsRefused s hs).2 r (.inr (.inl h)), fun hdeg => ⟨heq, ?_⟩⟩
  obtain ⟨-, hzero, hpos, -⟩ := rotateIsItsStep s (rad2deg r) hs hdeg
  rw [heq]
  exact ⟨hzero, hpos⟩

/-- A rotation whose step count is known is the STEP of that count. -/
theorem exec_rotate_eq_step {s : State} {a : Angle} {n : Count} {cw : Bool} (hs : s.seq = .idle)
    (ha : isFinite a = true) (hn : steps a s.cfgSpr = n.toNat) (hcw : dirOf a = cw) :
    exec (.rotate a) s = exec (.step n cw) s := by
  rw [(rotateIsItsStep s a hs ha).1 (by rw [hn]; exact n.isLt), hn, BitVec.ofNat_toNat, BitVec.setWidth_eq, hcw]

theorem exec_rotateRad_eq_rotate {s : State} {r a : Angle} (hs : s.seq = .idle) (hr : isFinite r = true)
    (hdeg : rad2deg r = a) (ha : isFinite a = true) : exec (.rotateRad r) s = exec (.rotate a) s := by
  subst hdeg
  exact ((rotateRadIsRotateOfItsDegrees s r hs hr).2 ha).1

/-- Settles O31: each count, direction and conversion is evaluated, and each rotation is then the STEP or the
rotation by the degrees that it is in general. -/
theorem sourceRotationExamples : Obligations.SourceRotationExamples := by
  intro s hs hspr
  have hrotate : ∀ (a : Angle) (n : Count) (cw : Bool), isFinite a = true → steps a 4096 = n.toNat →
      dirOf a = cw → exec (.rotate a) s = exec (.step n cw) s :=
    fun a n cw ha hn => exec_rotate_eq_step hs ha (hspr ▸ hn)
  have hzero := hrotate 0x0000000000000000#64 0 false (by decide) (by decide +kernel) (by decide)
  exact ⟨hrotate _ _ _ (by decide) (by decide +kernel) (by decide +kernel),
    hrotate _ _ _ (by decide) (by decide +kernel) (by decide),
    hzero,
    hzero.trans (stepOfZeroOnlyReportsSuccess s false hs),
    exec_rotateRad_eq_rotate hs (by decide) rad2deg_pi64 (by decide),
    hrotate _ _ _ (by decide) (by decide +kernel) (by decide +kernel),
    exec_rotateRad_eq_rotate hs (by decide) rad2deg_neg_half_pi64 (by decide),
    hrotate _ _ _ (by decide) (by decide +kernel) (by decide)⟩

end Sys2Proof
end

section
/-! Errors and cancellation (60_exceptions.md): how each error leaves the block, in one transition and at its place in a
STEP, what the level of `cancel` can change, and which steps complete a command. -/

namespace Sys2Proof.Machine

/-! ## The errors that end a running STEP (60_exceptions.md R86, R87) -/

/-- The step from `s` to `t` ended a running STEP with the error whose code is `code`; what became of `OUT` is left
open. -/
structure Aborted (code : Code) (s t : State) : Prop where
  status : t.status = code
  fault : t.fault = true
  seq : t.seq = .idle
  done : t.done = true
  phase : t.phase = s.phase
  dir : t.dir = s.dir
  ct : t.ct = s.ct
  cfgInterval : t.cfgInterval = s.cfgInterval
  cfgSpr : t.cfgSpr = s.cfgSpr

theorem aborted_of_raise {e : ErrorCause} (he : e = .interruptedOperation ∨ e = .pinWriteFailure) (s : State) :
    Aborted e.code s (nextInputs (raise e (startTick s))) := by
  obtain ⟨hseq, hphase, hdir, hint, hspr⟩ := raise_running he (startTick s)
  obtain ⟨hstatus, hfault, hdone⟩ := raise_report e (startTick s)
  obtain ⟨hct, -⟩ := raise_frame e (startTick s)
  constructor <;> simp only [nextInputs_status, nextInputs_fault, nextInputs_seq, nextInputs_done, nextInputs_phase,
    nextInputs_dir, nextInputs_ct, nextInputs_cfgInterval, nextInputs_cfgSpr] <;> assumption

theorem Aborted.stepEvents_eq {code : Code} {s t : State} (h : Aborted code s t) :
    stepEvents s t = outputEvents s t ++ [.completed code] := by
  rw [stepEvents, h.done, if_pos rfl, h.status]

theorem cancel_step {s : State} (ha : active s = true) (hs : s.seq = .wait) (hc : s.inputs.cancel = true) :
    ∃ t, step s = .next t ∧ Aborted 2 s t ∧ t.out = 0 ∧ stepEvents s t = [.waitCut, .outOff, .completed 2] := by
  have hst := step_of_wait ha hs
  rw [waitTick_cancelled (s := startTick s) hc] at hst
  have h : Aborted 2 s (nextInputs (raise .interruptedOperation (startTick s))) := aborted_of_raise (.inl rfl) s
  refine ⟨_, hst, h, by simp, ?_⟩
  rw [h.stepEvents_eq]
  simp [outputEvents, ha, hs, hc]

/-- Each output keeps its value or takes that of the pattern at `PHASE` (60_exceptions.md R87). -/
def OldOrNew (s t : State) : Prop :=
  ∀ i, i < 4 → t.out.getLsbD i = s.out.getLsbD i ∨ t.out.getLsbD i = (tableRead s.ct s.phase).getLsbD i

theorem oldOrNew_of_kept {s t : State} (h : t.out = s.out) : OldOrNew s t := fun _ _ => .inl (by rw [h])

theorem oldOrNew_of_failed_write (s : State) : OldOrNew s (nextInputs (raise .pinWriteFailure (startTick s))) := by
  intro i hi
  rw [nextInputs_out, raise_pinWriteFailure_out]
  exact mixPattern_bit _ _ _ i hi

theorem fail_step {s : State} (ha : active s = true) (hs : s.seq = .drive) (hw : s.inputs.wrFail = true) :
    ∃ t, step s = .next t ∧ Aborted 3 s t ∧ OldOrNew s t := by
  have hst := step_of_drive ha hs
  rw [iterate_fails (s := startTick s) hw] at hst
  exact ⟨_, hst, aborted_of_raise (.inr rfl) s, oldOrNew_of_failed_write s⟩

/-! ## A STEP in one of its waits -/

/-- After `i` whole ticks of its wait number `k + 1` a STEP has made `k + 1` iterations. -/
theorem within_wait {s : State} {w : CmdWord} {n : Count} {cw : Bool} (hf : fetch s = some w)
    (hd : decode w = .instr (.step n cw)) {k i : Nat} (hk : k + 1 < n.toNat) (hi : i < s.cfgInterval.toNat)
    (hu : holdsFor undisturbed (1 + k + k * s.cfgInterval.toNat + (1 + i)) s = true) :
    ∃ t, runSteps (1 + k + k * s.cfgInterval.toNat + (1 + i)) s = .next t ∧ t.seq = .wait ∧ t.dir = cw ∧
      t.phase = s.phase + delta cw * BitVec.ofNat 3 (k + 1) ∧
      trace (1 + k + k * s.cfgInterval.toNat + (1 + i)) s = writesFrom s.ct s.phase cw (k + 1) := by
  have hT : s.cfgInterval ≠ 0 := by rintro h; simp [h] at hi
  obtain ⟨u, hrun⟩ := runSteps_next (1 + k + k * s.cfgInterval.toNat) s
  obtain ⟨hu₁, hu₂⟩ := holdsFor_split hu hrun
  obtain ⟨il, l, tm, d, o, hbefore, -, -, htrace⟩ := before_write hf hd (by omega) (fun _ => hT) hu₁
  obtain rfl := Host.Outcome.next.inj (hbefore.symm.trans hrun)
  rw [runSteps_add hrun, trace_add hrun, htrace]
  rw [Nat.add_comm 1 i] at hu₂ ⊢
  have hmore : n - BitVec.ofNat 32 k ≠ 1 := by bv_omega
  obtain ⟨il', l', v, hst, hev, rfl⟩ := iterate_step rfl hmore (holdsFor_head hu₂)
  obtain ⟨il'', l'', d', hwait, hsilent⟩ := wait_part i rfl hi (holdsFor_tail hu₂ hst)
  rw [runSteps_succ hst, trace_succ hst, hev, hsilent, List.append_nil, writesFrom_succ]
  refine ⟨_, hwait, rfl, rfl, ?_, rfl⟩
  rw [← delta_succ]
  exact add_right_comm _ _ _

/-! ## The level of `cancel` outside WAIT (60_exceptions.md R89) -/

/-- The state with the level of `cancel` changed. -/
def withCancel (level : Bool) (s : State) : State := { s with inputs := { s.inputs with cancel := level } }

@[simp] theorem withCancel_seq (level : Bool) (s : State) : (withCancel level s).seq = s.seq := rfl

theorem runTick_of_reset {s : State} (h : s.inputs.rst = true) : runTick s = holdReset s := by simp [runTick, h]

theorem runTick_of_release {s : State} (h : s.inputs.rst = false) (hh : s.rstHeld = true) :
    runTick s = init s.inputs (releaseReset s) := by simp [runTick, h, hh]

/-! Each operation of a step but the tick of the wait commutes with changing the level. -/

section
variable (level : Bool) (s : State)

theorem raise_withCancel (e : ErrorCause) : raise e (withCancel level s) = withCancel level (raise e s) := by
  cases e <;> rfl

theorem acceptStep_withCancel (n : Count) (cw : Bool) :
    acceptStep n cw (withCancel level s) = withCancel level (acceptStep n cw s) := by
  by_cases hn : n = 0
  · subst hn; rfl
  · rw [acceptStep_pos hn, acceptStep_pos hn]; rfl

theorem rotateBy_withCancel (a : Angle) : rotateBy a (withCancel level s) = withCancel level (rotateBy a s) := by
  rw [rotateBy, rotateBy, acceptStep_withCancel, raise_withCancel, ← apply_ite (withCancel level)]
  rfl

theorem effect_withCancel (i : Instr) : effect i (withCancel level s) = withCancel level (effect i s) := by
  cases i with
  | stop => rfl
  | step n cw => exact acceptStep_withCancel level s n cw
  | rotate a => exact rotateBy_withCancel level s a
  | rotateRad r => rw [effect, effect, rotateBy_withCancel, raise_withCancel, apply_ite (withCancel level)]

theorem iterate_withCancel : iterate (withCancel level s) = withCancel level (iterate s) := by
  cases hw : s.inputs.wrFail with
  | true => rw [iterate_fails hw, iterate_fails (s := withCancel level s) hw, raise_withCancel]
  | false =>
    by_cases hr : s.rem = 1
    · rw [iterate_last hw hr, iterate_last (s := withCancel level s) hw hr]; rfl
    · rw [iterate_more hw hr, iterate_more (s := withCancel level s) hw hr]; rfl

/-- INIT samples the configuration inputs alone. -/
theorem init_withCancel (p : Inputs) :
    init { p with cancel := level } (withCancel level s) = withCancel level (init p s) := by
  rw [init, init, raise_withCancel, apply_ite (withCancel level)]
  rfl

theorem seqTick_withCancel (h : s.seq ≠ .wait) : seqTick (withCancel level s) = withCancel level (seqTick s) := by
  cases hs : s.seq with
  | failed | idle => simp only [seqTick, withCancel_seq, hs]
  | drive => simp only [seqTick, withCancel_seq, hs, iterate_withCancel]
  | wait => exact absurd hs h

theorem runTick_withCancel (h : ¬(active s = true ∧ s.seq = .wait)) :
    runTick (withCancel level s) = withCancel level (runTick s) := by
  cases ha : active s with
  | true =>
    rw [runTick_active ha, runTick_active (s := withCancel level s) ha]
    exact seqTick_withCancel level s fun hs => h ⟨ha, hs⟩
  | false =>
    cases hr : s.inputs.rst with
    | true => rw [runTick_of_reset hr, runTick_of_reset (s := withCancel level s) hr]; rfl
    | false =>
      have hh : s.rstHeld = true := by simpa [active, hr] using ha
      rw [runTick_of_release hr hh, runTick_of_release (s := withCancel level s) hr hh]
      exact init_withCancel level (releaseReset s) s.inputs

/-- The levels of the next step are the listed ones, or else they hold. -/
theorem nextInputs_withCancel :
    nextInputs (withCancel level s) = { nextInputs s with inputs := (nextInputs (withCancel level s)).inputs } := by
  cases h : s.later with
  | nil => rw [nextInputs_nil h, nextInputs_nil (s := withCancel level s) h]; rfl
  | cons p ps => rw [nextInputs_cons h, nextInputs_cons (s := withCancel level s) h]; rfl

/-- Outside WAIT the level that is read now makes no difference to what the step does. -/
theorem step_withCancel (h : ¬(active s = true ∧ s.seq = .wait)) :
    ∃ v, step s = .next (nextInputs v) ∧ step (withCancel level s) = .next (nextInputs (withCancel level v)) := by
  cases hf : fetch s with
  | none =>
    refine ⟨_, step_of_no_fetch hf, ?_⟩
    rw [step_of_no_fetch (s := withCancel level s) hf, ← runTick_withCancel level (startTick s) h]
    rfl
  | some w =>
    cases hd : decode w with
    | illegal why =>
      refine ⟨_, step_of_fetch_illegal hf hd, ?_⟩
      rw [step_of_fetch_illegal (s := withCancel level s) hf hd, ← raise_withCancel]
      rfl
    | instr i =>
      refine ⟨_, step_of_fetch_instr hf hd, ?_⟩
      rw [step_of_fetch_instr (s := withCancel level s) hf hd, ← effect_withCancel]
      rfl

end

/-! ## How a step ends a command (60_exceptions.md R84, R96) -/

/-- The step from `s` to `t` ended in IDLE a command that ran or that it accepted. -/
def Ends (s t : State) : Prop :=
  t.seq = .idle ∧ (s.seq = .drive ∨ s.seq = .wait ∨ (s.seq = .idle ∧ (fetch s).isSome = true))

/-- A step out of reset ends no command, or ends one with one of the four codes a command can end with. -/
inductive Ending (s t : State) : Prop where
  | none (hends : ¬Ends s t) (hdone : t.done = false) (hstatus : t.status = s.status)
  | succeeded (hends : Ends s t) (hdone : t.done = true) (hstatus : t.status = 0)
  | interrupted (hends : Ends s t) (hdone : t.done = true) (hstatus : t.status = 2) (hout : t.out = 0)
      (hphase : t.phase = s.phase)
  | writeFailed (hends : Ends s t) (hdone : t.done = true) (hstatus : t.status = 3) (hout : OldOrNew s t)
      (hphase : t.phase = s.phase)
  | refused (hends : Ends s t) (hdone : t.done = true) (hstatus : t.status = 4) (hout : t.out = s.out)
      (hphase : t.phase = s.phase)

theorem ends_of_fetch {s t : State} {w : CmdWord} (hs : s.seq = .idle) (hf : fetch s = some w) (ht : t.seq = .idle) :
    Ends s t := ⟨ht, .inr (.inr ⟨hs, by rw [hf]; rfl⟩)⟩

theorem ending_of_step {s t : State} (ha : active s = true) (h : step s = .next t) : Ending s t := by
  obtain ⟨u, hu, rfl⟩ := did_of_step h
  cases hu with
  | held hr => exact absurd hr (not_held ha)
  | inited _ hh => exact absurd hh (not_releasing ha)
  | rested _ hs =>
    refine .none ?_ (by simp) (by simp)
    rcases hs with hs | ⟨hs, hf⟩
    · simp [Ends, hs]
    · simp [Ends, hs, hf]
  | rejected _ hs hf | refused _ hs hf =>
    exact .refused (ends_of_fetch hs hf (by simp)) (by simp) (by simp) (by simp) (by simp)
  | stopped _ hs hf | completed _ hs hf =>
    exact .succeeded (ends_of_fetch hs hf (by simp)) (by simp) (by simp)
  | started | iterated | expired => exact .none (by simp [Ends]) (by simp) (by simp)
  | counted _ hs => exact .none (by simp [Ends, hs]) (by simp) (by simp)
  | finished _ hs => exact .succeeded ⟨by simp, .inl hs⟩ (by simp) (by simp)
  | writeFailed _ hs =>
    have hab := aborted_of_raise (.inr rfl) s
    exact .writeFailed ⟨hab.seq, .inl hs⟩ hab.done hab.status (oldOrNew_of_failed_write s) hab.phase
  | cancelled _ hs =>
    have hab := aborted_of_raise (.inl rfl) s
    exact .interrupted ⟨hab.seq, .inr (.inl hs)⟩ hab.done hab.status (by simp) hab.phase

/-- The step that accepts a word, from what `exec` answers for its instruction. -/
theorem step_of_fetch_exec {s v : State} {w : CmdWord} {i : Instr} (hf : fetch s = some w) (hd : decode w = .instr i)
    (he : exec i (takeCommand (startTick s)) = .next v) : step s = .next (nextInputs v) := by
  rw [exec_eq] at he
  rw [step_of_fetch_instr hf hd, Host.Outcome.next.inj he]

end Sys2Proof.Machine

namespace Sys2Proof

open Machine

/-- Settles O14: the cancelled tick, alone and after the iterations and the ticks that `within_wait` counts. -/
theorem cancellationForcesOutputsLow : Obligations.CancellationForcesOutputsLow := by
  refine ⟨fun s ha hs hc => ?_, fun s w n cw j i t hf hd hj hjn hi hu hrun ha hc => ?_⟩
  · obtain ⟨t, hst, h, hout, -⟩ := cancel_step ha hs hc
    exact ⟨t, hst, hout, h.status, h.fault, h.seq, h.done, h.phase, h.dir, h.ct, h.cfgInterval, h.cfgSpr⟩
  · obtain ⟨k, rfl⟩ := Nat.exists_eq_add_of_le' hj
    have hlen : 1 + (k + 1) + (k + 1 - 1) * s.cfgInterval.toNat + i = 1 + k + k * s.cfgInterval.toNat + (1 + i) := by
      rw [Nat.add_sub_cancel]; omega
    rw [hlen] at hu hrun ⊢
    obtain ⟨_, hrun', hseq, hdir, hphase, htrace⟩ := within_wait hf hd hjn hi hu
    obtain rfl := Host.Outcome.next.inj (hrun.symm.trans hrun')
    obtain ⟨u, hst, h, hout, hev⟩ := cancel_step ha hseq hc
    refine ⟨hseq, u, hst, h.phase.trans hphase, hout, h.status, h.fault, h.seq, h.dir.trans hdir, ?_⟩
    rw [trace_add hrun, trace_succ hst, htrace, hev]
    rfl

/-- Settles O15: the failed write, alone and after the iterations that `before_write` counts. -/
theorem failedWriteLeavesAMixture : Obligations.FailedWriteLeavesAMixture := by
  refine ⟨fun s ha hs hw => ?_, fun s w n cw j t hf hd hj hjn hT hu hrun ha hw => ?_⟩
  · obtain ⟨t, hst, h, hout⟩ := fail_step ha hs hw
    exact ⟨t, hst, hout, h.phase, h.status, h.fault, h.seq, h.done, h.dir, h.ct, h.cfgInterval, h.cfgSpr⟩
  · obtain ⟨k, rfl⟩ := Nat.exists_eq_add_of_le' hj
    have hlen : k + 1 + (k + 1 - 1) * s.cfgInterval.toNat = 1 + k + k * s.cfgInterval.toNat := by
      rw [Nat.add_sub_cancel]; omega
    rw [hlen] at hu hrun
    obtain ⟨_, _, _, _, _, hrun', -⟩ := before_write hf hd hjn (fun _ => hT) hu
    obtain rfl := Host.Outcome.next.inj (hrun'.symm.trans hrun)
    obtain ⟨u, hst, h, -⟩ := fail_step ha rfl hw
    exact ⟨rfl, u, hst, h.phase, h.status, h.fault, h.seq, h.dir⟩

/-- Settles O16: the cancelled tick, and outside WAIT the step with the level changed. -/
theorem cancelIsLookedAtOnlyInWait : Obligations.CancelIsLookedAtOnlyInWait := by
  refine ⟨fun s ha hs hc => ?_, fun s level h => ?_⟩
  · obtain ⟨t, hst, hab, -⟩ := cancel_step ha hs hc
    exact ⟨t, hst, hab.status⟩
  · obtain ⟨v, hst, hst'⟩ := step_withCancel level s h
    exact ⟨_, _, hst, hst', nextInputs_withCancel level v⟩

/-- Settles O19: what every step keeps of the table, the configuration and the flag, and of `PHASE` and `OUT` what each
of the errors a command can end with leaves; then the failed INIT. -/
theorem errorsKeepTableConfigurationAndPhase : Obligations.ErrorsKeepTableConfigurationAndPhase := by
  refine ⟨fun s t ha hst hdone hne => ?_, fun s hr hh hbad => ?_⟩
  · obtain ⟨hct, hcfg⟩ := tableAndConfigurationAreFixed s t hst
    obtain ⟨hint, hspr⟩ := hcfg fun h => not_releasing ha h.2.1
    have hfault : t.fault = true := by
      rw [fault_of_step ha hst, hdone, bne_iff_ne.mpr hne, Bool.and_self, Bool.or_true]
    refine ⟨hct, hint, hspr, ?_⟩
    cases ending_of_step ha hst with
    | none _ h => rw [h] at hdone; cases hdone
    | succeeded _ _ h => exact absurd h hne
    | interrupted _ _ h hout hphase => exact ⟨hphase, hfault, fun _ => hout, absurd h, by simp [h]⟩
    | writeFailed _ _ h hout hphase => exact ⟨hphase, hfault, by simp [h], fun _ => hout, by simp [h]⟩
    | refused _ _ h hout hphase =>
      exact ⟨hphase, hfault, by simp [h], fun _ => oldOrNew_of_kept hout, fun _ => hout⟩
  · have hfail := (initOk_eq_false_iff s.inputs).mpr hbad
    obtain ⟨-, hstatus, hfault, -⟩ := init_failure hfail (releaseReset (startTick s))
    obtain ⟨hint, hspr, hphase⟩ := init_failure_frame hfail (releaseReset (startTick s))
    obtain ⟨hct, -⟩ := init_frame s.inputs (releaseReset (startTick s))
    exact ⟨_, step_of_release hr hh, by simp [*]⟩

/-- Settles O21, by the ways a step can end a command. -/
theorem donePulsesExactlyOnCompletion : Obligations.DonePulsesExactlyOnCompletion := by
  intro s ha
  obtain ⟨t, hst⟩ : ∃ t, step s = .next t := let ⟨_, _, h⟩ := step_did s; ⟨_, h⟩
  refine ⟨t, hst, ?_⟩
  have hports : (outputs t).done = t.done ∧ (outputs t).status = t.status ∧ (outputs t).fault = t.fault :=
    ⟨rfl, rfl, rfl⟩
  cases ending_of_step ha hst with
  | none hends hdone hstatus =>
    exact ⟨iff_of_false (by simp [hdone]) hends, fun _ => hstatus, by simp [hdone], hports⟩
  | succeeded hends hdone hstatus | interrupted hends hdone hstatus | writeFailed hends hdone hstatus
  | refused hends hdone hstatus =>
    exact ⟨iff_of_true hdone hends, by simp [hdone], by simp [hstatus], hports⟩

/-- Settles O17: the word that decodes to nothing raises `BadCommand`, and so do the rotations that are refused. -/
theorem illegalWordOnlyReportsBadCommand : Obligations.IllegalWordOnlyReportsBadCommand := by
  intro s w hf h
  have hs : s.seq = .idle := (fetch_eq_some.mp hf).2.1
  obtain ⟨hrotate, hrotateRad⟩ := unfitRotationIsRefused (takeCommand (startTick s)) hs
  rcases h with ⟨why, hd⟩ | ⟨a, hd, hn⟩ | ⟨r, hd, hn⟩
  · rw [step_of_fetch_illegal hf hd, raise_badCommand, ← hs]
    rfl
  · exact step_of_fetch_exec hf hd (hrotate a (.inr hn))
  · exact step_of_fetch_exec hf hd (hrotateRad r (.inr hn))

/-- Settles O38: such a step only ends the pulse of `done`. -/
theorem idleWithoutACommandKeepsEverything : Obligations.IdleWithoutACommandKeepsEverything :=
  fun _ ha hs h => step_of_idle ha hs (fetch_eq_none_of_absent h)

end Sys2Proof
end

section
/-! Reset and hazards (70_reset_and_hazards.md): what the steps under reset and at its release leave, FAILED, that every
state has a next one, and that a running STEP ends whatever the environment does but reset the block. -/

namespace Sys2Proof.Machine

/-! ## INIT (70_reset_and_hazards.md R106 to R108) -/

/-- INIT reports `ConfigError` exactly when its checks do not pass. -/
theorem init_failed_iff (p : Inputs) (s : State) :
    ((init p s).seq = .failed ∧ (init p s).status = 1 ∧ (init p s).fault = true) ↔ initOk p = false := by
  cases h : initOk p with
  | true => simp [(init_success h s).1]
  | false =>
    obtain ⟨hseq, hstatus, hfault, -⟩ := init_failure h s
    exact iff_of_true ⟨hseq, hstatus, hfault⟩ rfl

/-! ## No reset to come -/

/-- Out of reset a step leaves the input levels, those to come and the record of `rst` to `nextInputs`. -/
theorem did_inputs {s u : State} (ha : active s = true) (hu : Did s u) :
    u.inputs = s.inputs ∧ u.later = s.later ∧ u.rstHeld = s.rstHeld := by
  cases hu with
  | held hr => exact absurd hr (not_held ha)
  | inited _ hh => exact absurd hh (not_releasing ha)
  | writeFailed | cancelled =>
    obtain ⟨-, -, -, -, hheld, hinputs, hlater, -⟩ := raise_frame _ (startTick s)
    exact ⟨hinputs, hlater, hheld⟩
  | rested | rejected | stopped | completed | refused | started | finished | iterated | expired | counted =>
    exact ⟨rfl, rfl, rfl⟩

theorem active_of_neverReset {s : State} (h : neverReset s = true) : active s = true := (Bool.and_eq_true_iff.mp h).1

theorem neverReset_step {s t : State} (h : neverReset s = true) (hst : step s = .next t) : neverReset t = true := by
  obtain ⟨u, hu, rfl⟩ := did_of_step hst
  obtain ⟨hinputs, hlater, hheld⟩ := did_inputs (active_of_neverReset h) hu
  exact neverReset_next h hinputs hlater hheld

/-! ## The steps a running STEP has left (70_reset_and_hazards.md R117)

`stepsLeft` counts a whole wait after every iteration, the last one included, so that each step of a running STEP takes
exactly one from it. The wait after the last iteration is never made: this is why the bound of `running_ends` is less by
one interval. -/

/-- A STEP is in progress. -/
def Running (s : State) : Prop := s.seq = .drive ∨ s.seq = .wait

/-- The iterations to come, each with a whole wait, and the rest of the present wait. -/
def stepsLeft (s : State) : Nat := s.rem.toNat * (s.cfgInterval.toNat + 1) + if s.seq = .wait then s.tmr.toNat else 0

theorem stepsLeft_drive {s : State} (hs : s.seq = .drive) :
    stepsLeft s = s.rem.toNat * (s.cfgInterval.toNat + 1) := by simp [stepsLeft, hs]

theorem stepsLeft_wait {s : State} (hs : s.seq = .wait) :
    stepsLeft s = s.rem.toNat * (s.cfgInterval.toNat + 1) + s.tmr.toNat := by simp [stepsLeft, hs]

@[simp] theorem stepsLeft_startTick (s : State) : stepsLeft (startTick s) = stepsLeft s := rfl

@[simp] theorem stepsLeft_nextInputs (s : State) : stepsLeft (nextInputs s) = stepsLeft s := by simp [stepsLeft]

/-- At least one iteration is to come (I5 of 10_state.md R31). -/
theorem interval_lt_stepsLeft {s : State} (hinv : Inv s) (hrun : Running s) : s.cfgInterval.toNat < stepsLeft s := by
  have hrem : 1 ≤ s.rem.toNat := hrun.elim hinv.drive fun hs => (hinv.wait hs).1
  have hmul := Nat.mul_le_mul_right (s.cfgInterval.toNat + 1) hrem
  unfold stepsLeft
  omega

/-- The rest of the present wait is at most one interval. -/
theorem stepsLeft_le {s : State} (hinv : Inv s) (hrun : Running s) :
    stepsLeft s ≤ s.rem.toNat * (s.cfgInterval.toNat + 1) + s.cfgInterval.toNat := by
  rcases hrun with hs | hs
  · rw [stepsLeft_drive hs]
    exact Nat.le_add_right _ _
  · rw [stepsLeft_wait hs]
    exact Nat.add_le_add_left (hinv.wait hs).2.2 _

/-- An iteration ends the STEP or goes over to a whole wait. -/
theorem iterate_counts {s : State} (hs : s.seq = .drive) (hrem : 1 ≤ s.rem.toNat) :
    (iterate s).seq = .idle ∨ (Running (iterate s) ∧ stepsLeft (iterate s) + 1 = stepsLeft s) := by
  cases hw : s.inputs.wrFail with
  | true =>
    rw [iterate_fails hw]
    exact .inl (raise_running (.inr rfl) s).1
  | false =>
    by_cases hr : s.rem = 1
    · rw [iterate_last hw hr]
      exact .inl rfl
    · rw [iterate_more hw hr]
      refine .inr ⟨.inr rfl, ?_⟩
      have hsucc : s.rem.toNat = (s.rem - 1).toNat + 1 := by bv_omega
      rw [stepsLeft_wait rfl, stepsLeft_drive hs, hsucc, Nat.succ_mul, Nat.add_assoc]

/-- A tick of the wait ends the STEP, ends the wait or is counted. -/
theorem waitTick_counts_down {s : State} (hs : s.seq = .wait) (htmr : 1 ≤ s.tmr.toNat) :
    (waitTick s).seq = .idle ∨ (Running (waitTick s) ∧ stepsLeft (waitTick s) + 1 = stepsLeft s) := by
  cases hc : s.inputs.cancel with
  | true =>
    rw [waitTick_cancelled hc]
    exact .inl (raise_running (.inl rfl) s).1
  | false =>
    by_cases ht : s.tmr = 1
    · rw [waitTick_expires hc ht]
      exact .inr ⟨.inl rfl, by rw [stepsLeft_drive rfl, stepsLeft_wait hs, ht]; rfl⟩
    · rw [waitTick_counts hc ht]
      refine .inr ⟨.inr hs, ?_⟩
      have hsucc : s.tmr.toNat = (s.tmr - 1).toNat + 1 := by bv_omega
      rw [stepsLeft_wait (s := { s with tmr := s.tmr - 1 }) hs, stepsLeft_wait hs, hsucc, Nat.add_assoc]

/-- A step of a running STEP ends it or takes one from the steps left. -/
theorem running_step {s : State} (hinv : Inv s) (hrun : Running s) (ha : active s = true) :
    ∃ t, step s = .next t ∧ (t.seq = .idle ∨ (Running t ∧ stepsLeft t + 1 = stepsLeft s)) := by
  rcases hrun with hs | hs
  · refine ⟨_, step_of_drive ha hs, ?_⟩
    simpa [Running] using iterate_counts (s := startTick s) hs (hinv.drive hs)
  · refine ⟨_, step_of_wait ha hs, ?_⟩
    simpa [Running] using waitTick_counts_down (s := startTick s) hs (hinv.wait hs).2.1

/-- A running STEP ends, by induction on the steps left. -/
theorem running_ends {s : State} (hinv : Inv s) (hrun : Running s) (hnr : neverReset s = true) :
    ∃ k t, k + s.cfgInterval.toNat ≤ stepsLeft s ∧ runSteps k s = .next t ∧ t.seq = .idle := by
  induction hn : stepsLeft s generalizing s with
  | zero => exact absurd (interval_lt_stepsLeft hinv hrun) (by omega)
  | succ n ih =>
    have ha := active_of_neverReset hnr
    obtain ⟨t, hst, hidle | ⟨hrun', hleft⟩⟩ := running_step hinv hrun ha
    · have hlt := interval_lt_stepsLeft hinv hrun
      exact ⟨1, t, by omega, runSteps_succ hst 0, hidle⟩
    · have hint : t.cfgInterval = s.cfgInterval :=
        ((tableAndConfigurationAreFixed s t hst).2 fun h => not_releasing ha h.2.1).1
      obtain ⟨k, u, hk, hsteps, hidle⟩ :=
        ih (registerInvariantsAreKept s t hinv hst) hrun' (neverReset_step hnr hst) (by omega)
      rw [hint] at hk
      exact ⟨k + 1, u, by omega, by rw [runSteps_succ hst, hsteps], hidle⟩

end Sys2Proof.Machine

namespace Sys2Proof

open Machine

/-- Settles O54: the steps left are at most the bound and one interval, and the wait after the last iteration is never
made. -/
theorem everyRunningStepEnds : Obligations.EveryRunningStepEnds := by
  intro s hinv hrun hnr
  obtain ⟨k, t, hk, hst, hidle⟩ := running_ends hinv hrun hnr
  exact ⟨k, t, Nat.le_of_add_le_add_right (hk.trans (stepsLeft_le hinv hrun)), hst, hidle⟩

/-- Settles O1, by the reset values. -/
theorem resetIsIdleAtPhaseZero : Obligations.ResetIsIdleAtPhaseZero := ⟨rfl, rfl, rfl, rfl, rfl⟩

/-- Settles O2, by the equations of the step under reset and of the step at its release. -/
theorem resetHoldsThenInitialises : Obligations.ResetHoldsThenInitialises :=
  ⟨fun _ => step_of_reset, fun _ => step_of_release⟩

/-- Settles O3, by what a successful INIT writes and what INIT leaves alone. -/
theorem goodConfigurationInitialises : Obligations.GoodConfigurationInitialises := by
  intro s hr hh hn hint hspr
  have hok : initOk s.inputs = true := (initOk_iff s.inputs).mpr ⟨hn, hint, hspr⟩
  obtain ⟨hseq, hphase, hstatus, hfault, hcfgInt, hcfgSpr, -⟩ := init_success hok (releaseReset (startTick s))
  obtain ⟨hct, hheld, -⟩ := init_frame s.inputs (releaseReset (startTick s))
  exact ⟨_, step_of_release hr hh, by simp [*]⟩

/-- Settles O4: the step at the release of `rst` is INIT, which fails exactly when its checks do not pass. -/
theorem configErrorExactlyOnAFailedCheck : Obligations.ConfigErrorExactlyOnAFailedCheck := by
  intro s hr hh
  refine ⟨_, step_of_release hr hh, ?_⟩
  rw [nextInputs_seq, nextInputs_status, nextInputs_fault, init_failed_iff, initOk_eq_false_iff]

/-- Settles O5: a failed check ends in FAILED, where a step only ends the pulse of `done`. -/
theorem failedInitIsForGood : Obligations.FailedInitIsForGood := by
  refine ⟨fun s hr hh hbad => ?_, fun s hs ha => ⟨by simp [outputs, hs], step_of_failed ha hs⟩⟩
  obtain ⟨t, hst, hfailed⟩ := configErrorExactlyOnAFailedCheck s hr hh
  exact ⟨t, hst, hfailed.mpr hbad⟩

/-- Settles O37, since every state is in one of the cases of `Did`. -/
theorem everyStateHasANextState : Obligations.EveryStateHasANextState := by
  intro s
  obtain ⟨u, -, hst⟩ := step_did s
  exact ⟨_, hst⟩

end Sys2Proof
end

section
/-! The written words of the test vectors (95_test_vectors.md part 2): each legal one is the encoding of its instruction,
but for the STOP with a free operand field, and each illegal one fails one check of the decoder. -/

namespace Sys2Proof

open Machine

/-- A word is decoded to every well-formed instruction that it encodes. -/
theorem decode_of_encode_eq {w : CmdWord} {i : Instr} (hwf : i.wf = true) (hw : encode i = w) :
    decode w = .instr i :=
  hw ▸ decodeOfEncode i hwf

/-- Settles O35: the legal words by their encoding, STOP and the illegal words by the fields the decoder checks. -/
theorem writtenWordsDecode : Obligations.WrittenWordsDecode := by
  refine ⟨?stop, ?stepCw, ?stepCcw, ?rotate, ?rotateRad, ?opcode, ?reservedBits, ?notFinite⟩
  case stop => exact decode_stop (by decide)
  case opcode => exact decode_unassigned (by decide)
  case reservedBits =>
    rw [decode_step (by decide)]
    exact decodeStep_eq_illegal.mpr ⟨by decide, rfl⟩
  case notFinite =>
    rw [decode_rotate (by decide)]
    exact decodeRotate_eq_illegal.mpr ⟨by decide, rfl⟩
  case stepCw | stepCcw | rotate | rotateRad => exact decode_of_encode_eq (by decide) (by decide)

end Sys2Proof
end
